-- ==== Sys2Proof/Word.lean ====
section
/-! DEFINITION. The word types: a byte (rule R13), and the 16-bit quantities `len` and `idx` (rules R23, R24). -/

namespace Sys2Proof

/-- An unsigned 8-bit value, bit 7 the most significant (R13). -/
abbrev Byte := BitVec 8

/-- An unsigned 16-bit value: the length field, the payload counter. -/
abbrev Half := BitVec 16

end Sys2Proof
end

