-- ==== Sys2Proof/Config.lean ====
section
/-! DEFINITION. The free values and the parameters: constants without a body, so that nothing can be proved of the numbers
they give. The spec's open link parameters (T_BUDGET, T_WRITE, LINK_RX_CAP, PLEN_W, REGMAP) are no state of the
block and no rule depends on them; the model admits every value of them (notes/assumptions/7.md, 9.md, 10.md). -/

namespace Sys2Proof.Machine

/-- The representative operations of R205. -/
inductive Facade where
  | ping | getVersion | getStatus | udpSend | udpReceive | tcpConnect | i2cScan
  deriving DecidableEq, Repr

/-- Four bytes in wire order: an IPv4 address (a fixed-length address field, R205), or ping's marker, whose value the
document does not give (N6). -/
structure Quad where
  b0 : Byte
  b1 : Byte
  b2 : Byte
  b3 : Byte
  deriving DecidableEq, Repr, Inhabited

end Sys2Proof.Machine

namespace Sys2Proof

/-- Free value number `n`: what CKUPD finds in `acc` where `acc` holds no value (R37, R275; notes/assumptions/2.md). -/
opaque Config.freeByte : Nat → Byte

/-- Free value: the byte ENCODE number `n` finds at index `i` of TXBUF where the host has written
none (R37, R272; notes/assumptions/3.md). -/
opaque Config.freeTxByte : Nat → Nat → Byte

/-- Free value number `n`: what the host reads from a location that holds no value, or from any register
while the block is busy (R26, R37; notes/assumptions/4.md). -/
opaque Config.freeRead : Nat → Half

/-- Parameter: the command byte of a facade's operation (U3: a model of a facade takes the opcodes as parameters). The
spec gives ping's alone (R90), which `Facade.command` uses in its place; see notes/assumptions/15.md. -/
opaque Config.facadeCommand : Machine.Facade → Byte

/-- Parameter: ping's "4 bytes literal marker" (R205), whose value the spec does not give (N6, U3). -/
opaque Config.pingMarker : Machine.Quad

/-- Free value: the addresses an I2C scan's facade reports where the response holds `rest` and declares a `count` of more
addresses than that (R205, R206; notes/assumptions/19.md). -/
opaque Config.scanAddresses : Byte → List Byte → List Byte

end Sys2Proof
end

