-- ==== Sys2Proof/Machine/Checksum.lean ====
section
/-! DEFINITION. Unit CK's function: the bit step, the byte step and the checksum of a sequence (40_checksum.md). -/

namespace Sys2Proof.Machine

/-- CK_INIT, the accumulator's initial value (R8). -/
def ckInit : Byte := 0xFF#8

/-- CK_POLY, the feedback constant (R8). -/
def ckPoly : Byte := 0x31#8

/-- BitStep (R111): shift left with a zero entering, and feed back when the high bit was set. -/
def bitStep (a : Byte) : Byte :=
  if a.msb then (a <<< 1) ^^^ ckPoly else a <<< 1

/-- ByteStep (R112): the input byte exclusive-ored in whole, then eight bit steps. -/
def byteStep (a b : Byte) : Byte :=
  bitStep (bitStep (bitStep (bitStep (bitStep (bitStep (bitStep (bitStep (a ^^^ b))))))))

/-- The accumulator after the bytes of `p`, taken in order from the value `a` (R114's loop; with `a = 0` it is
the Checksum0 of R122). -/
def checksumFrom (a : Byte) (p : List Byte) : Byte := p.foldl byteStep a

/-- Checksum (R114). -/
def checksum (p : List Byte) : Byte := checksumFrom ckInit p

end Sys2Proof.Machine
end

