-- ==== Sys2Proof/Machine/Wire.lean ====
section
/-! DEFINITION. The wire format shared by the encoder and the decoder: the sentinels, the length bytes, a whole
frame (30_encoding.md, rules R80 to R92). -/

namespace Sys2Proof.Machine

/-- SOF, the frame's first byte (R7, R82). -/
def sof : Byte := 0xAA#8

/-- EOF, the frame's last byte (R7, R87). -/
def eof : Byte := 0x55#8

/-- MAX_PAYLOAD (R9), which is also BUF_SIZE (R11, R50, R51). -/
def maxPayload : Nat := 65535

/-- The more significant byte of a 16-bit length (R13, R84). -/
def hi8 (n : Half) : Byte := n.extractLsb' 8 8

/-- The less significant byte of a 16-bit length (R13, R84). -/
def lo8 (n : Half) : Byte := n.extractLsb' 0 8

/-- `(len_hi << 8) | len_lo`, big-endian (R55, R84). -/
def joinLen (hi lo : Byte) : Half := hi ++ lo

/-- The byte count of a payload as the length field holds it. -/
def lenOf (p : List Byte) : Half := BitVec.ofNat 16 p.length

/-- The bytes of a frame in wire order, from its command, payload, checksum byte and end byte (R80): the two
last are whatever they are, right or wrong. -/
def wire (c : Byte) (p : List Byte) (ck stop : Byte) : List Byte :=
  [sof, c, hi8 (lenOf p), lo8 (lenOf p)] ++ p ++ [ck, stop]

/-- Frame(c, p) (R91): the one well-formed frame of a command and a payload. -/
def frame (c : Byte) (p : List Byte) : List Byte := wire c p (checksum p) eof

end Sys2Proof.Machine
end

