-- ==== Sys2Proof/Machine/Facade.lean ====
section
/-! DEFINITION. The conventions on payload contents (R204, R205): status byte, request and response layouts of the seven
representative operations. The block reads none of it. -/

namespace Sys2Proof.Machine

/-- The status byte of a response payload (R204). -/
inductive Status where
  | ok | error | unknownCmd | invalidParam | timeout | busy | notInit
  deriving DecidableEq, Repr

/-- The seven status bytes of R204; the document says nothing of the others (N15). -/
def statusOf (b : Byte) : Option Status :=
  if b = 0x00#8 then some .ok
  else if b = 0x01#8 then some .error
  else if b = 0x02#8 then some .unknownCmd
  else if b = 0x03#8 then some .invalidParam
  else if b = 0x04#8 then some .timeout
  else if b = 0x05#8 then some .busy
  else if b = 0x06#8 then some .notInit
  else none

/-- The four bytes, first byte first. -/
def Quad.bytes (q : Quad) : List Byte := [q.b0, q.b1, q.b2, q.b3]

/-- A 16-bit integer in a payload: big-endian (R204, R205). -/
def bigEndian (n : Half) : List Byte := [hi8 n, lo8 n]

/-- A request of a facade with its fields in the order of R205. -/
inductive Request where
  | ping
  | getVersion
  | getStatus
  | udpSend (socket : Byte) (destIp : Quad) (destPort : Half) (data : List Byte)
  | udpReceive (socket : Byte) (maxLen : Half)
  | tcpConnect (socket : Byte) (destIp : Quad) (destPort timeoutMs : Half)
  | i2cScan
  deriving DecidableEq, Repr

/-- What follows the status byte of a response, with its fields in the order of R205. `ping` is the literal marker;
`pingOther` is what a facade that accepts by length alone (R206) finds where four other bytes stand in its place. -/
inductive Response where
  | ping
  | pingOther (found : Quad)
  | getVersion (major minor patch : Byte)
  | getStatus (ethInit ethLink rtcPresent hours minutes seconds ramHi ramLo : Byte)
  | udpSend (bytesSent : Half)
  | udpReceive (srcIp : Quad) (srcPort length : Half) (data : List Byte)
  | tcpConnect
  | i2cScan (count : Byte) (addresses : List Byte)
  deriving DecidableEq, Repr

/-- The operation a request belongs to. -/
def Request.facade : Request → Facade
  | .ping => .ping
  | .getVersion => .getVersion
  | .getStatus => .getStatus
  | .udpSend _ _ _ _ => .udpSend
  | .udpReceive _ _ => .udpReceive
  | .tcpConnect _ _ _ _ => .tcpConnect
  | .i2cScan => .i2cScan

/-- The operation a response belongs to. -/
def Response.facade : Response → Facade
  | .ping | .pingOther _ => .ping
  | .getVersion _ _ _ => .getVersion
  | .getStatus _ _ _ _ _ _ _ _ => .getStatus
  | .udpSend _ => .udpSend
  | .udpReceive _ _ _ _ => .udpReceive
  | .tcpConnect => .tcpConnect
  | .i2cScan _ _ => .i2cScan

/-- The command a request is sent with: ping's 0x00 (R90), the others a parameter (U3). -/
def Facade.command : Facade → Byte
  | .ping => 0x00#8
  | f => Config.facadeCommand f

/-- The request payload (R205). -/
def Request.payload : Request → List Byte
  | .ping | .getVersion | .getStatus | .i2cScan => []
  | .udpSend socket destIp destPort data => [socket] ++ destIp.bytes ++ bigEndian destPort ++ data
  | .udpReceive socket maxLen => [socket] ++ bigEndian maxLen
  | .tcpConnect socket destIp destPort timeoutMs =>
    [socket] ++ destIp.bytes ++ bigEndian destPort ++ bigEndian timeoutMs

/-- The response payload after its status byte (R205). DEDUCED (notes/assumptions/15.md): the fields of get status, whose
sizes R205 does not give, are one byte each. -/
def Response.bytes : Response → List Byte
  | .ping => Config.pingMarker.bytes
  | .pingOther found => found.bytes
  | .getVersion major minor patch => [major, minor, patch]
  | .getStatus ethInit ethLink rtcPresent hours minutes seconds ramHi ramLo =>
    [ethInit, ethLink, rtcPresent, hours, minutes, seconds, ramHi, ramLo]
  | .udpSend bytesSent => bigEndian bytesSent
  | .udpReceive srcIp srcPort length data => srcIp.bytes ++ bigEndian srcPort ++ bigEndian length ++ data
  | .tcpConnect => []
  | .i2cScan count addresses => [count] ++ addresses

/-- Whether a response is one of R205's table: ping's marker is the literal one, and the count of I2C scan counts its
addresses. The table does not say what `length` of UDP receive counts (notes/assumptions/15.md). -/
def Response.followsTable : Response → Bool
  | .pingOther _ => false
  | .i2cScan count addresses => addresses.length = count.toNat
  | .ping | .getVersion _ _ _ | .getStatus _ _ _ _ _ _ _ _ | .udpSend _ | .udpReceive _ _ _ _ | .tcpConnect => true

/-- The marker of a ping response: the literal one, or other bytes. R206 has no failure for these. -/
def readMarker (found : Quad) : Response :=
  if found = Config.pingMarker then .ping else .pingOther found

/-- The addresses of an I2C scan: `count` of them (R205). Where fewer bytes are there the payload still has the fixed
prefix, so R206 accepts it, and the spec states no result: a free value (notes/assumptions/19.md). -/
def readAddresses (count : Byte) (rest : List Byte) : List Byte :=
  if count.toNat ≤ rest.length then rest.take count.toNat else Config.scanAddresses count rest

/-- The byte count of the fixed prefix of a response payload after its status byte (R205, R206). DEDUCED
(notes/assumptions/15.md): 8 for get status, whose row gives no sizes, is one byte for each field. -/
def Facade.responseFixed : Facade → Nat
  | .ping => 4
  | .getVersion => 3
  | .getStatus => 8
  | .udpSend => 2
  | .udpReceive => 8
  | .tcpConnect => 0
  | .i2cScan => 1

/-- The response that the bytes after the status byte hold, the fields of get status one byte each
(notes/assumptions/15.md); nothing where they are shorter than the fixed prefix (R206).
The data of UDP receive is what follows the fixed fields, and bytes after the last field of any other layout are not read
(notes/assumptions/15.md). -/
def Facade.parse (f : Facade) (bs : List Byte) : Option Response :=
  match f with
  | .ping =>
    match bs with
    | a :: b :: c :: d :: _ => some (readMarker ⟨a, b, c, d⟩)
    | _ => none
  | .getVersion =>
    match bs with
    | major :: minor :: patch :: _ => some (.getVersion major minor patch)
    | _ => none
  | .getStatus =>
    match bs with
    | ethInit :: ethLink :: rtcPresent :: hours :: minutes :: seconds :: ramHi :: ramLo :: _ =>
      some (.getStatus ethInit ethLink rtcPresent hours minutes seconds ramHi ramLo)
    | _ => none
  | .udpSend =>
    match bs with
    | hi :: lo :: _ => some (.udpSend (joinLen hi lo))
    | _ => none
  | .udpReceive =>
    match bs with
    | a :: b :: c :: d :: ph :: pl :: lh :: ll :: data =>
      some (.udpReceive ⟨a, b, c, d⟩ (joinLen ph pl) (joinLen lh ll) data)
    | _ => none
  | .tcpConnect => some .tcpConnect
  | .i2cScan =>
    match bs with
    | count :: rest => some (.i2cScan count (readAddresses count rest))
    | _ => none

end Sys2Proof.Machine
end

