-- ==== Sys2Proof/Machine/State.lean ====
section
/-! DEFINITION. The machine's state: the tuple of rule R20, the environment the block works in (link, host), and
the model's own counters. Plain data throughout. -/

namespace Sys2Proof.Machine

/-- `phase` (R27): what the block is waiting to do. -/
inductive Phase where
  | idle
  | eSof | eCmd | eLenh | eLenl | ePay | eCk | eEof
  | dSof | dCmd | dLenh | dLenl | dPay | dCk | dEof
  deriving DecidableEq, Repr

/-- `err` (R30). Seven values; the code 7 is never produced and has no constructor (U14). -/
inductive ErrCode where
  | none | timeout | badStartByte | truncated | badEndByte | checksumMismatch | payloadTooLarge
  deriving DecidableEq, Repr

/-- A payload buffer: (index, byte) pairs, indices strictly rising (`Memory.wf` in Machine/Ops.lean). An index
that is not listed holds no value (R37). -/
abbrev Memory := List Host.Cell

/-- Which data registers hold a value (R37, R38, D12). The model's own field: where a flag is false, nothing the
register's number says is used. -/
structure Known where
  acc : Bool
  cmd : Bool
  len : Bool
  idx : Bool
  rxck : Bool
  deriving DecidableEq, Repr

/-- No register holds a value. -/
def Known.nothing : Known := ⟨false, false, false, false, false⟩

/-- Every register holds a value. -/
def Known.everything : Known := ⟨true, true, true, true, true⟩

/-- What `open` is given (R194). No rule of the block reads it; the pauses it asks for are time
(notes/assumptions/13.md). -/
structure LinkConfig where
  endpoint : Nat
  bitRate : Nat
  waitForBoot : Bool
  deriving DecidableEq, Repr

/-- The link session (R197), with the configuration it was opened with. -/
inductive Session where
  | closed
  | opened (c : LinkConfig)
  deriving DecidableEq, Repr

/-- The failures of a link (R196). -/
inductive TransportError where
  | openFailure | writeFailure | readFailure | timeout | truncated
  deriving DecidableEq, Repr

/-- The result of a link operation (R190). -/
inductive LinkReply where
  | ok
  | failed (e : TransportError)
  deriving DecidableEq, Repr

/-- What the host can read (R26, R33, R51). -/
inductive HostReg where
  | acc | cmd | len | done | err | busy | txValid | rxWant
  | rxbuf (i : Nat)
  deriving DecidableEq, Repr

/-- The failures of the host (R199, R200): those of the link, of which R199 names a failed write `TransportFailure`,
those of the block, and NotConnected. No transaction returns the first two: it does not open the link, and a read failure
that is no timeout has no path through the DECODE (U9, N8; notes/assumptions/12.md). -/
inductive BridgeError where
  | openFailure | readFailure
  | notConnected | transportFailure | payloadTooLarge
  | timeout | truncated | badStartByte | badEndByte | checksumMismatch
  deriving DecidableEq, Repr

/-- What a host transaction returns (R199). -/
inductive BridgeResult where
  | payload (p : List Byte)
  | failed (e : BridgeError)
  deriving DecidableEq, Repr

/-- What a facade returns (R206). -/
inductive FacadeResult where
  | accepted (r : Response)
  | operationFailed
  deriving DecidableEq, Repr

/-- What the environment offers the block: the five events of R34 and what the host and the link do around them.
The oldest stands first in `State.inputs`. -/
inductive Input where
  | reset                                                  -- R34, R38
  | start (op : BitVec 2) (a : Byte) (plen : Nat)          -- R32
  | txAccept                                               -- R34: the link takes the offered byte
  | rx                                                     -- R34, R52: the link delivers its oldest pending byte
  | rxTimeout                                              -- R34
  | transfer                                               -- R61: the link serves the whole running operation
  | arrive (b : Byte)                                      -- R52: a byte of the peer joins LINK_RX
  | discard                                                -- R193
  | hostWrite (i : Nat) (b : Byte)                         -- R50: the host writes a byte of TXBUF
  | hostRead (r : HostReg)                                 -- R26, R51
  | openLink (c : LinkConfig) (fails : Bool)               -- R190, R194, R196, R197
  | closeLink                                              -- R195, R197
  | linkFails (e : TransportError)                         -- R197: an unrecoverable transport error
  | writeFails                                             -- R139, R192: the link gives up a write
  -- R199: `cut` is the count of bytes the link accepts before its write fails, if it does; `resp` are the bytes
  -- the link delivers to the DECODE before it times out
  | transceive (c : Byte) (p : List Byte) (cut : Option Nat) (resp : List Byte)
  | call (q : Request) (cut : Option Nat) (resp : List Byte)  -- R205, R206: a facade's operation
  deriving DecidableEq, Repr

structure State where
  -- the block (R20)
  phase : Phase
  acc : Byte
  cmd : Byte
  len : Half
  idx : Half
  rxck : Byte
  done : Bool
  err : ErrCode
  txbuf : Memory
  rxbuf : Memory
  -- the model's own: which registers hold a value, and the counters the free values are drawn with
  known : Known
  draws : Nat
  encodes : Nat
  -- the environment (R39, R52, R53, R197)
  linkRx : List Byte
  linkTx : List Byte
  session : Session
  inputs : List Input
  readout : Half
  bridge : Option BridgeResult
  linkReply : Option LinkReply
  facade : Option FacadeResult
  deriving DecidableEq, Repr

/-- A step that stops because an address does not exist. -/
inductive Fault where
  /-- Raised by a host access to TXBUF or RXBUF at index 65535 or above, which R50 and R51 say does not exist. Safe:
  the model stops where the spec gives no location. -/
  | bufferIndexOutOfRange
  deriving DecidableEq, Repr

/-- A step the spec gives no move (R17), or an instruction without a meaning. The spec says of every "no move" that a
model which has it errs toward proving if a real environment offers the event (R270 to R273): unsafe in that sense,
and listed in notes/assumptions/5.md. -/
inductive Refusal where
  /-- Raised by exec's arm of an instruction that has no meaning. Safe. -/
  | notModelled (mnemonic : String)
  /-- Raised by the four operations when `start` is offered in a busy phase (R270). Unsafe as said above. -/
  | startWhileBusy
  /-- Raised by a `start` of DECODE in an idle block while the link session is closed (R207, third column). Unsafe as
  said above. -/
  | decodeOnClosedLink
  /-- Raised by `tx_accept`, and by a write that fails, when `tx_valid = 0` (R273). Unsafe as said above. -/
  | txNotOffered
  /-- Raised by `rx` or `rx_timeout` when `rx_want = 0` (R273); the byte stays in LINK_RX. Unsafe as said above. -/
  | rxNotWanted
  /-- Raised by `rx` when LINK_RX is empty: the link has no byte to deliver (R52). Safe. -/
  | linkHasNoByte
  /-- Raised by `transfer` when no operation is running (R273). Unsafe as said above. -/
  | nothingToTransfer
  /-- Raised by a host write to TXBUF while the block is busy (R50, R272). Unsafe as said above. -/
  | txbufWriteWhileBusy
  /-- Raised by a host read of RXBUF during a DECODE (R272). Unsafe as said above. -/
  | rxbufReadDuringDecode
  /-- Raised by a host transaction or a facade's operation begun on an open link while the block is busy: the host is
  assumed not to interleave (R207 third column, U8: `refuse` at the host boundary; R201, R270). Unsafe as said above. -/
  | transceiveWhileBusy
  deriving DecidableEq, Repr

/-- The machine right after reset (R38, R197): idle, `done` and `err` 0, nothing holds a value, the link session
closed. The zeros of `acc`, `cmd`, `len`, `idx` and `rxck` are DESIGN CHOICE (notes/assumptions/1.md): the spec gives
these registers no value, and `known` says so. -/
def State.reset : State where
  phase := .idle
  acc := 0#8
  cmd := 0#8
  len := 0#16
  idx := 0#16
  rxck := 0#8
  done := false
  err := .none
  txbuf := []
  rxbuf := []
  known := Known.nothing
  draws := 0
  encodes := 0
  linkRx := []
  linkTx := []
  session := .closed
  inputs := []
  readout := 0#16
  bridge := none
  linkReply := none
  facade := none

end Sys2Proof.Machine
end

