-- ==== Sys2Proof/Machine/Ops.lean ====
section
/-! DEFINITION. The named operations on buffers, streams and registers, and the one way an operation ends: `raise E`
and `finish` of rules R15 and R226. There is no return from an error (R232): the next `start` simply begins anew. -/

namespace Sys2Proof.Machine

/-- What an unlisted buffer index reads as: no value (R37; notes/assumptions/3.md). -/
def unwritten : Option Byte := none

/-- The byte a buffer holds at an index (R15 MemRead). -/
def memRead : Memory → Nat → Option Byte
  | [], _ => unwritten
  | (a, b) :: m, i => if a = i then some b else memRead m i

/-- Write one byte of a buffer, keeping the indices in rising order (R15 MemWrite). -/
def memWrite : Memory → Nat → Byte → Memory
  | [], i, b => [(i, b)]
  | (a, x) :: m, i, b =>
    if i < a then (i, b) :: (a, x) :: m
    else if i = a then (i, b) :: m
    else (a, x) :: memWrite m i b

/-- Forget what a buffer holds at index `n` and above. -/
def memBelow (m : Memory) (n : Nat) : Memory := m.filter (fun c => decide (c.1 < n))

/-- Write the bytes of `p` from index `i` upwards. -/
def memLoad : Memory → Nat → List Byte → Memory
  | m, _, [] => m
  | m, i, b :: p => memLoad (memWrite m i b) (i + 1) p

/-- The canonical form: indices strictly rising, all inside the buffer (R50, R51). -/
def Memory.wf : Memory → Bool
  | [] => true
  | (a, _) :: m => decide (a < maxPayload) && m.all (fun c => decide (a < c.1)) && Memory.wf m

/-- The buffer holds the bytes of `p` at index 0 upwards. -/
abbrev memHolds (m : Memory) (p : List Byte) : Prop := ∀ i < p.length, memRead m i = p[i]?

/-- End the running operation with result `e` (R226 `raise`; with `.none`, R15 `finish`): `err`, `done` and `phase`
are written, nothing is saved and control goes nowhere. -/
def finishWith (e : ErrCode) (s : State) : State := { s with err := e, done := true, phase := .idle }

/-- End a DECODE with an error: no register of the data path and no byte of RXBUF holds a value any more (R166, D12).
The registers' numbers stay as the step left them (R163, R164). -/
def failDecode (e : ErrCode) (s : State) : State :=
  { finishWith e s with known := Known.nothing, rxbuf := [] }

/-- End a DECODE with success (R158, R166): every register holds its value, RXBUF holds the payload and nothing above
it (R51). -/
def passDecode (s : State) : State :=
  { finishWith .none s with known := Known.everything, rxbuf := memBelow s.rxbuf s.len.toNat }

/-- The `reset` event (R38, R262): the block is as after reset, the link and the host are as they were. -/
def resetBlock (s : State) : State :=
  { s with
    phase := .idle
    acc := 0#8
    cmd := 0#8
    len := 0#16
    idx := 0#16
    rxck := 0#8
    done := false
    err := .none
    txbuf := []
    rxbuf := []
    known := Known.nothing }

/-- Append a byte to the link's transmit stream (R53, LinkTx). -/
def sendByte (b : Byte) (s : State) : State := { s with linkTx := s.linkTx ++ [b] }

/-- Take a fresh number for a free value. -/
def nextDraw (s : State) : State := { s with draws := s.draws + 1 }

end Sys2Proof.Machine
end

