-- ==== Sys2Proof/Machine/Operands.lean ====
section
/-! DEFINITION. The operand forms: the accumulator as a source, a byte of TXBUF, the byte the encoder offers. Where a
location holds no value the operand is a free value. -/

namespace Sys2Proof.Machine

/-- The accumulator as CKUPD reads it: its value, or free value number `draws` where it holds none (R275). -/
def accOperand (s : State) : Byte := if s.known.acc then s.acc else Config.freeByte s.draws

/-- The byte ENCODE number `k` reads at index `i` of a transmit buffer: the byte the host wrote, or a free value where
it wrote none (R272). -/
def txByteOf (m : Memory) (k : Nat) (i : Nat) : Byte := (memRead m i).getD (Config.freeTxByte k i)

/-- `TXBUF[i]` as the running ENCODE reads it. It does not change while the operation runs (R136). -/
def txByte (s : State) : Nat → Byte := txByteOf s.txbuf s.encodes

/-- `TXBUF[0..n]` as the running ENCODE reads it. -/
def txPayload (s : State) (n : Nat) : List Byte := (List.range n).map (txByte s)

/-- `RXBUF[0..n]`: the bytes it holds at the indices below `n`, in order. -/
def rxPayload (s : State) (n : Nat) : List Byte := (List.range n).filterMap (memRead s.rxbuf)

/-- The byte offered to the link in each phase (R136); 0 where none is offered. -/
def offeredByte (s : State) : Byte :=
  match s.phase with
  | .eSof => sof
  | .eCmd => s.cmd
  | .eLenh => hi8 s.len
  | .eLenl => lo8 s.len
  | .ePay => txByte s s.idx.toNat
  | .eCk => s.acc
  | .eEof => eof
  | .idle | .dSof | .dCmd | .dLenh | .dLenl | .dPay | .dCk | .dEof => 0x00#8

end Sys2Proof.Machine
end

