-- ==== Sys2Proof/Machine/CheckUnit.lean ====
section
/-! DEFINITION. The checksum unit's operations CKINIT and CKUPD (rules R116, R117). Each completes in the step that
accepts it. -/

namespace Sys2Proof.Machine

/-- CKINIT (R116). -/
def execCkinit (s : State) : Host.Outcome State Fault Refusal :=
  if s.phase = .idle then
    .next (finishWith .none { s with acc := ckInit, known := { s.known with acc := true } })
  else .refused .startWhileBusy

/-- CKUPD (R117). Where `acc` holds no value the result holds none either (R275): it is computed from a free value. -/
def execCkupd (a : Byte) (s : State) : Host.Outcome State Fault Refusal :=
  if s.phase = .idle then
    .next (finishWith .none (nextDraw { s with acc := byteStep (accOperand s) a }))
  else .refused .startWhileBusy

end Sys2Proof.Machine
end

