-- ==== Sys2Proof/Syntax.lean ====
section
/-! DEFINITION. The instructions: one constructor per row of spec/opcode_table.json, the four operations of
rule R95 and the nine frame classes of rules R89, R90 and R98. -/

namespace Sys2Proof

/-- What follows a frame's header word on the wire (R80, R81): the payload, the checksum byte, the end byte. The
header's 16-bit length is the payload's byte count. -/
structure Body where
  payload : List Byte
  ck : Byte
  stop : Byte
  deriving DecidableEq, Repr

/-- One constructor per row of the table. The command of a frame is split as the row's mask splits it: the fixed
high bits are the constructor, the free low bits its first argument. -/
inductive Instr where
  | ckinit                                         -- CKINIT, R116
  | ckupd (a : Byte)                               -- CKUPD, R117
  | encode (a : Byte) (plen : Nat)                 -- ENCODE, R130: `plen` a natural number (R32)
  | decode                                         -- DECODE, R150
  | frameSys (c : BitVec 4) (f : Body)             -- FRAME.SYS, commands 0x00 to 0x0F but for the ping request
  | frameEth (c : BitVec 4) (f : Body)             -- FRAME.ETH, 0x10 to 0x1F
  | frameUdp (c : BitVec 4) (f : Body)             -- FRAME.UDP, 0x20 to 0x2F
  | frameTcp (c : BitVec 4) (f : Body)             -- FRAME.TCP, 0x30 to 0x3F
  | frameRtc (c : BitVec 4) (f : Body)             -- FRAME.RTC, 0x40 to 0x4F
  | frameI2c (c : BitVec 4) (f : Body)             -- FRAME.I2C, 0x50 to 0x5F
  | frameUnassigned6 (c : BitVec 5) (f : Body)     -- FRAME.UNASSIGNED_60_7F
  | frameUnassigned8 (c : BitVec 7) (f : Body)     -- FRAME.UNASSIGNED_80_FF
  | framePing (ck stop : Byte)                     -- FRAME.PING: command 0x00, no payload (R90)
  deriving DecidableEq, Repr

/-- The command byte of a frame class with a nibble of its own (R89). -/
def nibbleCommand (k c : BitVec 4) : Byte := k ++ c

/-- The command byte and the body of a frame; nothing for an operation. -/
def Instr.frameParts : Instr → Option (Byte × Body)
  | .ckinit | .ckupd _ | .encode _ _ | .decode => none
  | .frameSys c f => some (nibbleCommand 0#4 c, f)
  | .frameEth c f => some (nibbleCommand 1#4 c, f)
  | .frameUdp c f => some (nibbleCommand 2#4 c, f)
  | .frameTcp c f => some (nibbleCommand 3#4 c, f)
  | .frameRtc c f => some (nibbleCommand 4#4 c, f)
  | .frameI2c c f => some (nibbleCommand 5#4 c, f)
  | .frameUnassigned6 c f => some ((3#3 ++ c : BitVec 8), f)
  | .frameUnassigned8 c f => some ((1#1 ++ c : BitVec 8), f)
  | .framePing ck stop => some (0x00#8, ⟨[], ck, stop⟩)

end Sys2Proof
end

