-- ==== Sys2Proof/WellFormed.lean ====
section
/-! DEFINITION. Which instructions are well formed: each check of rule R91 under a name of its own. -/

namespace Sys2Proof

open Sys2Proof.Machine

/-- The payload's byte count fits the 16-bit length field (R9, R84). -/
def payloadFits : Instr → Bool
  | .ckinit | .ckupd _ | .encode _ _ | .decode | .framePing _ _ => true
  | .frameSys _ f | .frameEth _ f | .frameUdp _ f | .frameTcp _ f | .frameRtc _ f | .frameI2c _ f
  | .frameUnassigned6 _ f | .frameUnassigned8 _ f => decide (f.payload.length ≤ maxPayload)

/-- A frame of command 0x00 with no payload is FRAME.PING, not FRAME.SYS ("Match this row before FRAME.SYS"). -/
def notPing : Instr → Bool
  | .frameSys c f => !(decide (c = 0#4) && f.payload.isEmpty)
  | _ => true

/-- The checksum byte is that of the payload (R86, R91). -/
def checksumRight (i : Instr) : Bool :=
  match i.frameParts with
  | none => true
  | some (_, f) => decide (f.ck = checksum f.payload)

/-- The end byte is 0x55 (R87, R91). -/
def endRight (i : Instr) : Bool :=
  match i.frameParts with
  | none => true
  | some (_, f) => decide (f.stop = eof)

/-- The instruction fits its row's encoding; the checksum and end bytes may have any value. -/
def Instr.Encodable (i : Instr) : Bool := payloadFits i && notPing i

/-- WellFormed(F) of R91 for a frame; every operation is well formed (R95: all four codes are used). -/
def Instr.WellFormed (i : Instr) : Bool := i.Encodable && checksumRight i && endRight i

end Sys2Proof
end

