-- ==== Sys2Proof/Decode.lean ====
section
/-! DEFINITION. The decoder of the opcode table's words, total and rejecting by name, and the encoder beside it.
There are two kinds of word: the `start` event's operands (R32, R95) and a frame's bytes (R80, R81). This is the
reading of the TABLE; the block's own DECODE operation is Machine/Decoder.lean. -/

namespace Sys2Proof

open Sys2Proof.Machine

/-- A word of the opcode table with what belongs to it: a `start` event, or the bytes of one frame. -/
inductive Encoding where
  | start (op : BitVec 2) (a : Byte) (plen : Nat)
  | wire (bytes : List Byte)
  deriving DecidableEq, Repr

/-- Why bytes are no frame with bytes after it: the names of R93 for a missing first byte, a first byte other than
0xAA, and bytes that end before the frame does; and bytes left over where exactly one frame is wanted. -/
inductive Reject where
  | timeout
  | badStartByte
  | truncated
  | trailingBytes
  deriving DecidableEq, Repr

/-- What the front of a byte stream holds: a frame and the bytes after it, or a named rejection. -/
inductive Fetched where
  | frame (i : Instr) (rest : List Byte)
  | rejected (why : Reject)
  deriving DecidableEq, Repr

/-- What an encoding stands for. -/
inductive Decoded where
  | instr (i : Instr)
  | rejected (why : Reject)
  deriving DecidableEq, Repr

/-- The operation a `start` event selects (R95): all four codes are used. CKINIT and DECODE ignore both operands,
CKUPD ignores `plen` (R32). -/
def decodeStart (op : BitVec 2) (a : Byte) (plen : Nat) : Instr :=
  if op = 0#2 then .ckinit
  else if op = 1#2 then .ckupd a
  else if op = 2#2 then .encode a plen
  else .decode

/-- The frame class of a command (R89, R98), the ping request first (R90). -/
def frameInstr (c : Byte) (f : Body) : Instr :=
  if c = 0x00#8 ∧ f.payload = [] then .framePing f.ck f.stop
  else if c.extractLsb' 4 4 = 0#4 then .frameSys (c.extractLsb' 0 4) f
  else if c.extractLsb' 4 4 = 1#4 then .frameEth (c.extractLsb' 0 4) f
  else if c.extractLsb' 4 4 = 2#4 then .frameUdp (c.extractLsb' 0 4) f
  else if c.extractLsb' 4 4 = 3#4 then .frameTcp (c.extractLsb' 0 4) f
  else if c.extractLsb' 4 4 = 4#4 then .frameRtc (c.extractLsb' 0 4) f
  else if c.extractLsb' 4 4 = 5#4 then .frameI2c (c.extractLsb' 0 4) f
  else if c.extractLsb' 5 3 = 3#3 then .frameUnassigned6 (c.extractLsb' 0 5) f
  else .frameUnassigned8 (c.extractLsb' 0 7) f

/-- The body of a frame whose declared length is `n`, from the bytes after its header, and the bytes after it
(R92: the length is known after the fourth byte). -/
def cutBody (n : Nat) (r : List Byte) : Option (Body × List Byte) :=
  match r.drop n with
  | ck :: stop :: rest => some (⟨r.take n, ck, stop⟩, rest)
  | _ => none

/-- The frame at the front of a byte stream (R80, R92). The checksum and end bytes are taken as they are. -/
def decodeFrame : List Byte → Fetched
  | [] => .rejected .timeout
  | b :: t =>
    if b = sof then
      match t with
      | c :: hi :: lo :: r =>
        match cutBody (joinLen hi lo).toNat r with
        | some (f, rest) => .frame (frameInstr c f) rest
        | none => .rejected .truncated
      | _ => .rejected .truncated
    else .rejected .badStartByte

/-- The instruction an encoding stands for. -/
def decode : Encoding → Decoded
  | .start op a plen => .instr (decodeStart op a plen)
  | .wire bytes =>
    match decodeFrame bytes with
    | .frame i [] => .instr i
    | .frame _ (_ :: _) => .rejected .trailingBytes
    | .rejected why => .rejected why

/-- The wire bytes of a frame's command and body (R80). -/
def bodyBytes (c : Byte) (f : Body) : List Byte := wire c f.payload f.ck f.stop

/-- The encoder. An operand that an operation ignores is 0. -/
def encode : Instr → Encoding
  | .ckinit => .start 0#2 0#8 0
  | .ckupd a => .start 1#2 a 0
  | .encode a plen => .start 2#2 a plen
  | .decode => .start 3#2 0#8 0
  | .frameSys c f => .wire (bodyBytes (nibbleCommand 0#4 c) f)
  | .frameEth c f => .wire (bodyBytes (nibbleCommand 1#4 c) f)
  | .frameUdp c f => .wire (bodyBytes (nibbleCommand 2#4 c) f)
  | .frameTcp c f => .wire (bodyBytes (nibbleCommand 3#4 c) f)
  | .frameRtc c f => .wire (bodyBytes (nibbleCommand 4#4 c) f)
  | .frameI2c c f => .wire (bodyBytes (nibbleCommand 5#4 c) f)
  | .frameUnassigned6 c f => .wire (bodyBytes (3#3 ++ c) f)
  | .frameUnassigned8 c f => .wire (bodyBytes (1#1 ++ c) f)
  | .framePing ck stop => .wire (bodyBytes 0x00#8 ⟨[], ck, stop⟩)

/-- A table word as the hardware meets it: an OP row's two bits are the `op` of a `start` whose other operands are
0; a FRAME row's 32 bits are the header word H, its byte 0 in bits 31 to 24 (R81), and every byte of the frame after
the header is 0. -/
def tableEncoding (nbits w : Nat) : Option Encoding :=
  if nbits ≤ 8 then some (.start (BitVec.ofNat 2 w) 0#8 0)
  else if nbits = 32 then
    let h : BitVec 32 := BitVec.ofNat 32 w
    let n : Half := h.extractLsb' 0 16
    some (.wire ([h.extractLsb' 24 8, h.extractLsb' 16 8, h.extractLsb' 8 8, h.extractLsb' 0 8]
      ++ List.replicate (n.toNat + 2) 0#8))
  else none

/-- The instruction the decoder reads from a table word. -/
def decodeTableWord (nbits w : Nat) : Option Instr :=
  match tableEncoding nbits w with
  | none => none
  | some e =>
    match decode e with
    | .instr i => some i
    | .rejected _ => none

end Sys2Proof
end

