-- ==== Sys2Proof/Machine/Flags.lean ====
section
/-! DEFINITION. The derived flags of rule R31 and the numbers of the error codes (R30). No operation computes an
arithmetic flag: the block has none (R30). -/

namespace Sys2Proof.Machine

/-- `busy = (phase != IDLE)`. -/
def busy (s : State) : Bool := decide (s.phase ≠ .idle)

/-- The phases in which the block offers a byte to the link. -/
def Phase.sends : Phase → Bool
  | .eSof | .eCmd | .eLenh | .eLenl | .ePay | .eCk | .eEof => true
  | .idle | .dSof | .dCmd | .dLenh | .dLenl | .dPay | .dCk | .dEof => false

/-- The phases in which the block takes a byte or a timeout from the link. -/
def Phase.receives : Phase → Bool
  | .dSof | .dCmd | .dLenh | .dLenl | .dPay | .dCk | .dEof => true
  | .idle | .eSof | .eCmd | .eLenh | .eLenl | .ePay | .eCk | .eEof => false

/-- `tx_valid`. -/
def txValid (s : State) : Bool := s.phase.sends

/-- `rx_want`. -/
def rxWant (s : State) : Bool := s.phase.receives

/-- The number of an error code, 3 bits wide (R30, D7). -/
def errNumber : ErrCode → BitVec 3
  | .none => 0#3
  | .timeout => 1#3
  | .badStartByte => 2#3
  | .truncated => 3#3
  | .badEndByte => 4#3
  | .checksumMismatch => 5#3
  | .payloadTooLarge => 6#3

end Sys2Proof.Machine
end

