-- ==== Sys2Proof/Machine/Decoder.lean ====
section
/-! DEFINITION. The frame decoder DEC: the operation DECODE and its byte steps (rules R162 to R164). -/

namespace Sys2Proof.Machine

/-- The accepting step (R162): no byte is consumed. -/
def acceptDecode (s : State) : State := { s with done := false, phase := .dSof }

/-- DECODE (R150, R162). -/
def execDecode (s : State) : Host.Outcome State Fault Refusal :=
  if s.phase = .idle then .next (acceptDecode s) else .refused .startWhileBusy

/-- The step in phase D_EOF (R163, R155 to R157): the end byte is checked before the checksum. -/
def endStep (b : Byte) (s : State) : State :=
  if b ≠ eof then failDecode .badEndByte s
  else if s.rxck ≠ s.acc then failDecode .checksumMismatch s
  else passDecode s

/-- The step on `rx(b)` (R163); the byte has left LINK_RX. Nothing happens in a phase that takes no byte. -/
def rxStep (b : Byte) (s : State) : State :=
  match s.phase with
  | .dSof => if b = sof then { s with phase := .dCmd } else failDecode .badStartByte s
  | .dCmd => { s with cmd := b, phase := .dLenh }
  | .dLenh => { s with len := joinLen b (lo8 s.len), phase := .dLenl }
  | .dLenl =>
    { s with
      len := joinLen (hi8 s.len) b
      idx := 0#16
      acc := ckInit
      phase := if joinLen (hi8 s.len) b = 0#16 then .dCk else .dPay }
  | .dPay =>
    { s with
      rxbuf := memWrite s.rxbuf s.idx.toNat b
      acc := byteStep s.acc b
      idx := s.idx + 1#16
      phase := if s.idx + 1#16 = s.len then .dCk else .dPay }
  | .dCk => { s with rxck := b, phase := .dEof }
  | .dEof => endStep b s
  | .idle | .eSof | .eCmd | .eLenh | .eLenl | .ePay | .eCk | .eEof => s

/-- The step on `rx_timeout` (R164): Timeout where no byte of the frame has come, Truncated after that. -/
def timeoutStep (s : State) : State :=
  match s.phase with
  | .dSof => failDecode .timeout s
  | .dCmd | .dLenh | .dLenl | .dPay | .dCk | .dEof => failDecode .truncated s
  | .idle | .eSof | .eCmd | .eLenh | .eLenl | .ePay | .eCk | .eEof => s

/-- The link answers reads with the bytes of `bs` for as long as the block wants one; the bytes it does not take stay
at the head of LINK_RX (R64, R167). -/
def deliver : List Byte → State → State
  | [], s => s
  | b :: bs, s => if rxWant s then deliver bs (rxStep b s) else { s with linkRx := b :: bs ++ s.linkRx }

/-- The link answers reads with every pending byte and then times out, until the operation ends (R150, R161). -/
def answerAll (s : State) : State :=
  let t := deliver s.linkRx { s with linkRx := [] }
  if rxWant t then timeoutStep t else t

end Sys2Proof.Machine
end

