-- ==== Sys2Proof/Machine/Encoder.lean ====
section
/-! DEFINITION. The frame encoder ENC: the operation ENCODE and its byte steps (rules R135 to R138). -/

namespace Sys2Proof.Machine

/-- The accepting step for a payload that fits (R135): no byte is offered to the link yet. -/
def beginEncode (a : Byte) (plen : Nat) (s : State) : State :=
  { s with
    done := false
    cmd := a
    len := BitVec.ofNat 16 plen
    idx := 0#16
    acc := ckInit
    phase := .eSof
    known := { s.known with acc := true, cmd := true, len := true, idx := true }
    encodes := s.encodes + 1 }

/-- The accepting step of ENCODE (R135), PayloadTooLarge checked first (R131). -/
def acceptEncode (a : Byte) (plen : Nat) (s : State) : State :=
  if plen > maxPayload then finishWith .payloadTooLarge s else beginEncode a plen s

/-- ENCODE (R130, R135). -/
def execEncode (a : Byte) (plen : Nat) (s : State) : Host.Outcome State Fault Refusal :=
  if s.phase = .idle then .next (acceptEncode a plen s) else .refused .startWhileBusy

/-- The step on `tx_accept` (R138): the offered byte joins LINK_TX. Nothing happens in a phase that offers no byte. -/
def txStep (s : State) : State :=
  match s.phase with
  | .eSof => { sendByte (offeredByte s) s with phase := .eCmd }
  | .eCmd => { sendByte (offeredByte s) s with phase := .eLenh }
  | .eLenh => { sendByte (offeredByte s) s with phase := .eLenl }
  | .eLenl => { sendByte (offeredByte s) s with phase := if s.len = 0#16 then .eCk else .ePay }
  | .ePay =>
    { sendByte (offeredByte s) s with
      acc := byteStep s.acc (offeredByte s)
      idx := s.idx + 1#16
      phase := if s.idx + 1#16 = s.len then .eCk else .ePay }
  | .eCk => { sendByte (offeredByte s) s with phase := .eEof }
  | .eEof => finishWith .none (sendByte (offeredByte s) s)
  | .idle | .dSof | .dCmd | .dLenh | .dLenl | .dPay | .dCk | .dEof => s

/-- `n` bytes accepted one after the other, or fewer where the operation ends before. -/
def txRun : Nat → State → State
  | 0, s => s
  | n + 1, s => txRun n (txStep s)

/-- The bytes the block will send before the running ENCODE ends (R28: at most `len + 6`). -/
def offeredBytes (s : State) : List Byte :=
  (txRun (s.len.toNat + 6) s).linkTx.drop s.linkTx.length

end Sys2Proof.Machine
end

