-- ==== Sys2Proof/Machine/FramePass.lean ====
section
/-! DEFINITION. The nine frame classes. What a frame does depends on the phase and never on its command (R88, R98): a
DECODE receives it (R150, R163), the running ENCODE sends it (R130, R138), or it waits in LINK_RX (R235, R271). -/

namespace Sys2Proof.Machine

/-- A frame with the wire bytes `bs`, oldest in the stream, meets the block. An ENCODE that has sent nothing yet sends it,
where it is the frame the block offers. Otherwise its bytes are delivered for as long as the block wants one: all or some
of them to a DECODE, none of them to a block that is idle or sending, and those not taken stay at the head of LINK_RX. -/
def passFrame (bs : List Byte) (s : State) : Host.Outcome State Fault Refusal :=
  if s.phase = .eSof ∧ offeredBytes s = bs then .next (txRun (s.len.toNat + 6) s)
  else .next (deliver bs s)

/-- FRAME.SYS (R80, R89; R130, R150). -/
def execFrameSys (c : BitVec 4) (f : Body) (s : State) : Host.Outcome State Fault Refusal :=
  passFrame (bodyBytes (nibbleCommand 0#4 c) f) s

/-- FRAME.ETH. -/
def execFrameEth (c : BitVec 4) (f : Body) (s : State) : Host.Outcome State Fault Refusal :=
  passFrame (bodyBytes (nibbleCommand 1#4 c) f) s

/-- FRAME.UDP. -/
def execFrameUdp (c : BitVec 4) (f : Body) (s : State) : Host.Outcome State Fault Refusal :=
  passFrame (bodyBytes (nibbleCommand 2#4 c) f) s

/-- FRAME.TCP. -/
def execFrameTcp (c : BitVec 4) (f : Body) (s : State) : Host.Outcome State Fault Refusal :=
  passFrame (bodyBytes (nibbleCommand 3#4 c) f) s

/-- FRAME.RTC. -/
def execFrameRtc (c : BitVec 4) (f : Body) (s : State) : Host.Outcome State Fault Refusal :=
  passFrame (bodyBytes (nibbleCommand 4#4 c) f) s

/-- FRAME.I2C. -/
def execFrameI2c (c : BitVec 4) (f : Body) (s : State) : Host.Outcome State Fault Refusal :=
  passFrame (bodyBytes (nibbleCommand 5#4 c) f) s

/-- FRAME.UNASSIGNED_60_7F: carried like any other (R88, R89). -/
def execFrameUnassigned6 (c : BitVec 5) (f : Body) (s : State) : Host.Outcome State Fault Refusal :=
  passFrame (bodyBytes (3#3 ++ c) f) s

/-- FRAME.UNASSIGNED_80_FF: carried like any other (R88, R89). -/
def execFrameUnassigned8 (c : BitVec 7) (f : Body) (s : State) : Host.Outcome State Fault Refusal :=
  passFrame (bodyBytes (1#1 ++ c) f) s

/-- FRAME.PING, the ping request (R90). -/
def execFramePing (ck stop : Byte) (s : State) : Host.Outcome State Fault Refusal :=
  passFrame (bodyBytes 0x00#8 ⟨[], ck, stop⟩) s

end Sys2Proof.Machine
end

