-- ==== Sys2Proof/Machine/Dispatch.lean ====
section
/-! DEFINITION. One arm per constructor of Instr. -/

namespace Sys2Proof.Machine

def exec (i : Instr) (s : State) : Host.Outcome State Fault Refusal :=
  match i with
  | .ckinit => Sys2Proof.Machine.execCkinit s
  | .ckupd a => Sys2Proof.Machine.execCkupd a s
  | .encode a plen => Sys2Proof.Machine.execEncode a plen s
  | .decode => Sys2Proof.Machine.execDecode s
  | .frameSys c f => Sys2Proof.Machine.execFrameSys c f s
  | .frameEth c f => Sys2Proof.Machine.execFrameEth c f s
  | .frameUdp c f => Sys2Proof.Machine.execFrameUdp c f s
  | .frameTcp c f => Sys2Proof.Machine.execFrameTcp c f s
  | .frameRtc c f => Sys2Proof.Machine.execFrameRtc c f s
  | .frameI2c c f => Sys2Proof.Machine.execFrameI2c c f s
  | .frameUnassigned6 c f => Sys2Proof.Machine.execFrameUnassigned6 c f s
  | .frameUnassigned8 c f => Sys2Proof.Machine.execFrameUnassigned8 c f s
  | .framePing ck stop => Sys2Proof.Machine.execFramePing ck stop s

end Sys2Proof.Machine
end

