-- ==== Sys2Proof/Machine/HostPort.lean ====
section
/-! DEFINITION. What the host and the link do around the block: buffer accesses and register reads (R26, R50, R51,
R207), the link's pending input and its session (R52, R193, R194, R195, R197). -/

namespace Sys2Proof.Machine

/-- The host writes one byte of TXBUF, while the block is idle (R50, R69). -/
def hostWrite (i : Nat) (b : Byte) (s : State) : Host.Outcome State Fault Refusal :=
  if maxPayload ≤ i then .fault .bufferIndexOutOfRange
  else if busy s then .refused .txbufWriteWhileBusy
  else .next { s with txbuf := memWrite s.txbuf i b }

/-- One bit as the host reads it. -/
def bitOf (b : Bool) : Half := if b then 1#16 else 0#16

/-- The width of what the host reads (R21 to R33). -/
def regWidth : HostReg → Nat
  | .acc | .cmd | .rxbuf _ => 8
  | .len => 16
  | .err => 3
  | .done | .busy | .txValid | .rxWant => 1

/-- What a location holds for the host to read; nothing where it holds no value, and nothing while the block is busy,
when a read returns any value (R26, R37). -/
def heldValue (r : HostReg) (s : State) : Option Half :=
  if busy s then none
  else
    match r with
    | .acc => if s.known.acc then some (s.acc.setWidth 16) else none
    | .cmd => if s.known.cmd then some (s.cmd.setWidth 16) else none
    | .len => if s.known.len then some s.len else none
    | .done => some (bitOf s.done)
    | .err => some ((errNumber s.err).setWidth 16)
    | .busy => some (bitOf (busy s))
    | .txValid => some (bitOf (txValid s))
    | .rxWant => some (bitOf (rxWant s))
    | .rxbuf i => (memRead s.rxbuf i).map (fun b => b.setWidth 16)

/-- The value a host read returns, and the number of free values used. -/
def readValue (r : HostReg) (s : State) : State :=
  match heldValue r s with
  | some v => { s with readout := v }
  | none => nextDraw { s with readout := ((Config.freeRead s.draws).setWidth (regWidth r)).setWidth 16 }

/-- The host reads a register, a flag or a byte of RXBUF (R26, R51). RXBUF has no move during a DECODE (R272). -/
def hostRead (r : HostReg) (s : State) : Host.Outcome State Fault Refusal :=
  match r with
  | .rxbuf i =>
    if maxPayload ≤ i then .fault .bufferIndexOutOfRange
    else if rxWant s then .refused .rxbufReadDuringDecode
    else .next (readValue r s)
  | .acc | .cmd | .len | .done | .err | .busy | .txValid | .rxWant => .next (readValue r s)

/-- A byte of the peer joins the pending input (R52); it changes nothing in the block (R235). DESIGN CHOICE
(notes/assumptions/18.md): it does so whatever the session. -/
def arrive (b : Byte) (s : State) : State := { s with linkRx := s.linkRx ++ [b] }

/-- `discard_pending_input()` (R193). DESIGN CHOICE (notes/assumptions/18.md): it has its effect whatever
the session and in every phase, a running operation included. -/
def discard (s : State) : State := { s with linkRx := [] }

/-- The session becomes `x` (R197). DESIGN CHOICE (notes/assumptions/17.md): from either state, and in every phase. -/
def setSession (x : Session) (s : State) : State := { s with session := x }

/-- The link reports a result to the host (R190). -/
def reply (r : LinkReply) (s : State) : State := { s with linkReply := some r }

/-- `open(configuration)` (R190, R194, R196, R197). One that fails opens nothing.
DESIGN CHOICE (notes/assumptions/17.md): on an Open session too, and in every phase. -/
def openLink (c : LinkConfig) (fails : Bool) (s : State) : State :=
  if fails then reply (.failed .openFailure) s else reply .ok (setSession (.opened c) s)

/-- An unrecoverable transport error closes the session (R197). The block is left to the host's `reset` (U9, N8).
DESIGN CHOICE (notes/assumptions/17.md): in every phase, from either session state. -/
def linkFails (e : TransportError) (s : State) : State := reply (.failed e) (setSession .closed s)

/-- The link gives up a write that is running and tells the host (R139, R192); the block holds until `reset`. -/
def writeFails (s : State) : Host.Outcome State Fault Refusal :=
  if txValid s then .next (reply (.failed .writeFailure) s) else .refused .txNotOffered

end Sys2Proof.Machine
end

