-- ==== Sys2Proof/Machine/Transaction.lean ====
section
/-! DEFINITION. The host's transaction and the conventions on response payloads (R199 to R206): the environment the
block works in, not the block. -/

namespace Sys2Proof.Machine

/-- The host's category of each failure of the link (R200: BridgeError is a superset; R199 step 3 names the write's). -/
def BridgeError.ofTransport : TransportError → BridgeError
  | .openFailure => .openFailure
  | .writeFailure => .transportFailure
  | .readFailure => .readFailure
  | .timeout => .timeout
  | .truncated => .truncated

/-- What the host returns for each result of the block (R199 step 4: mapped one to one). -/
def bridgeOf (s : State) : BridgeResult :=
  match s.err with
  | .none => .payload (rxPayload s s.len.toNat)
  | .timeout => .failed .timeout
  | .badStartByte => .failed .badStartByte
  | .truncated => .failed .truncated
  | .badEndByte => .failed .badEndByte
  | .checksumMismatch => .failed .checksumMismatch
  | .payloadTooLarge => .failed .payloadTooLarge

/-- Steps 2 and 3 up to the accepted ENCODE: discard, write the payload into TXBUF where it fits, start. DESIGN CHOICE
(notes/assumptions/20.md): of a payload above 65535 bytes nothing is written; the spec does not say what the host has then
written. -/
def beginRequest (c : Byte) (p : List Byte) (s : State) : State :=
  acceptEncode c p.length
    (if p.length ≤ maxPayload then { discard s with txbuf := memLoad s.txbuf 0 p } else discard s)

/-- Steps 4 and 5: DECODE the response from the bytes the link delivers before it times out. -/
def takeResponse (resp : List Byte) (s : State) : State :=
  let t := answerAll (acceptDecode { s with linkRx := s.linkRx ++ resp })
  { t with bridge := some (bridgeOf t) }

/-- The link takes `n` bytes of the request and then fails the write: the host returns the block to idle by `reset`
and reports TransportFailure (R139, R199 step 3). -/
def failWrite (n : Nat) (s : State) : State :=
  { reply (.failed .writeFailure) (resetBlock (txRun n s)) with
    bridge := some (.failed (.ofTransport .writeFailure)) }

/-- `transceive` (R199), as one step of the host. On a closed session it fails first, without touching the link or the
block, whatever the block is doing (R199 step 1, R200). -/
def transceive (c : Byte) (p : List Byte) (cut : Option Nat) (resp : List Byte) (s : State) :
    Host.Outcome State Fault Refusal :=
  match s.session with
  | .closed => .next { s with bridge := some (.failed .notConnected) }
  | .opened _ =>
    if busy s then .refused .transceiveWhileBusy
    else
      let t := beginRequest c p s
      if busy t then
        match cut with
        | some n => .next (failWrite n t)
        | none => .next (takeResponse resp (reply .ok (txRun (p.length + 6) t)))
      else .next { t with bridge := some (bridgeOf t) }

/-- How a facade judges a transaction (R206): the response after an OK status, or one failure for all of a status other
than OK, a payload shorter than the fixed prefix, and a failed transaction. -/
def Facade.judge (f : Facade) : BridgeResult → FacadeResult
  | .failed _ => .operationFailed
  | .payload [] => .operationFailed
  | .payload (b :: p) =>
    if statusOf b = some .ok then
      match f.parse p with
      | some r => .accepted r
      | none => .operationFailed
    else .operationFailed

/-- The facade's verdict on the transaction that has just ended. -/
def verdict (f : Facade) (s : State) : State := { s with facade := s.bridge.map f.judge }

/-- A facade's operation: one transaction with the request's command and payload, judged (R205, R206). -/
def call (q : Request) (cut : Option Nat) (resp : List Byte) (s : State) : Host.Outcome State Fault Refusal :=
  match transceive q.facade.command q.payload cut resp s with
  | .next t => .next (verdict q.facade t)
  | .fault r => .fault r
  | .refused r => .refused r

/-- The host operations that a pseudo-operation stands for (R97): COMPUTE. -/
def computeInputs (p : List Byte) : List Input :=
  .start 0#2 0#8 0 :: p.map (fun b => .start 1#2 b 0)

/-- PING (R97), with the six bytes the link takes. -/
def pingInputs : List Input := .start 2#2 0#8 0 :: List.replicate 6 .txAccept

end Sys2Proof.Machine
end

