-- ==== Sys2Proof/Machine/Events.lean ====
section
/-! DEFINITION. One input of the environment, taken by the machine (R34, R36): the five events of the block, of which
`start` runs an instruction, and what the host and the link do. -/

namespace Sys2Proof.Machine

/-- `tx_accept` (R34, R138). DESIGN CHOICE (notes/assumptions/21.md): whatever the session. -/
def takeAccept (s : State) : Host.Outcome State Fault Refusal :=
  if txValid s then .next (txStep s) else .refused .txNotOffered

/-- `rx(b)`, with `b` the oldest pending byte, which leaves LINK_RX (R34, R52, R163). -/
def takeRx (s : State) : Host.Outcome State Fault Refusal :=
  if rxWant s then
    match s.linkRx with
    | [] => .refused .linkHasNoByte
    | b :: rest => .next (rxStep b { s with linkRx := rest })
  else .refused .rxNotWanted

/-- `rx_timeout` (R34, R164). -/
def takeTimeout (s : State) : Host.Outcome State Fault Refusal :=
  if rxWant s then .next (timeoutStep s) else .refused .rxNotWanted

/-- The link serves the whole running operation, as one transition (R61). At the start of a DECODE the frame at the
head of LINK_RX is fetched and run; where there is none, the reads are answered with what is pending and then with a
timeout. At the start of an ENCODE the frame that the block offers is fetched and run. Later in an operation the link
serves what is left of it. DESIGN CHOICE (notes/assumptions/21.md): whatever the session. -/
def transfer (s : State) : Host.Outcome State Fault Refusal :=
  if s.phase = .dSof then
    match decodeFrame s.linkRx with
    | .frame i rest => exec i { s with linkRx := rest }
    | .rejected _ => .next (answerAll s)
  else if s.phase = .eSof then
    match decode (.wire (offeredBytes s)) with
    | .instr i => exec i s
    | .rejected _ => .next (txRun (s.len.toNat + 6) s)
  else if rxWant s then .next (answerAll s)
  else if txValid s then .next (txRun (s.len.toNat + 6) s)
  else .refused .nothingToTransfer

/-- `start(op, a, plen)` (R32, R34), as the host may offer it: not a DECODE on a closed link (R207). The block itself has
no register for the session (R197), so DECODE's own meaning does not look at it. -/
def takeStart (op : BitVec 2) (a : Byte) (plen : Nat) (s : State) : Host.Outcome State Fault Refusal :=
  if op = 3#2 ∧ s.session = .closed ∧ s.phase = .idle then .refused .decodeOnClosedLink
  else exec (decodeStart op a plen) s

/-- One input, taken. -/
def handle (e : Input) (s : State) : Host.Outcome State Fault Refusal :=
  match e with
  | .reset => .next (resetBlock s)
  | .start op a plen => takeStart op a plen s
  | .txAccept => takeAccept s
  | .rx => takeRx s
  | .rxTimeout => takeTimeout s
  | .transfer => transfer s
  | .arrive b => .next (arrive b s)
  | .discard => .next (discard s)
  | .hostWrite i b => hostWrite i b s
  | .hostRead r => hostRead r s
  | .openLink c fails => .next (openLink c fails s)
  | .closeLink => .next (setSession .closed s)
  | .linkFails e => .next (linkFails e s)
  | .writeFails => writeFails s
  | .transceive c p cut resp => transceive c p cut resp s
  | .call q cut resp => call q cut resp s

/-- An open session: the one there is, or one on some endpoint at the default bit rate (R12). -/
def openedSession : Session → Session
  | .closed => .opened ⟨0, 115200, false⟩
  | .opened c => .opened c

/-- The machine with an encoding as what it takes next: a `start` event is offered, on an open link where it is a DECODE;
a frame is pending at the head of LINK_RX with a DECODE waiting for its first byte (R162), and the link serves it. -/
def placeEncoding (e : Encoding) (s : State) : State :=
  match e with
  | .start op a plen =>
    { s with
      session := if op = 3#2 then openedSession s.session else s.session
      inputs := .start op a plen :: s.inputs }
  | .wire bytes =>
    { acceptDecode s with
      session := openedSession s.session
      linkRx := bytes ++ s.linkRx
      inputs := .transfer :: s.inputs }

end Sys2Proof.Machine
end

