-- ==== Sys2Proof/Machine/Step.lean ====
section
/-! DEFINITION. One step: take the oldest input the environment offers (R36). -/

namespace Sys2Proof.Machine

/-- One step of the machine. Without an input the block holds its state (R36). -/
def step (s : State) : Host.Outcome State Fault Refusal :=
  match s.inputs with
  | [] => .next s
  | e :: es => handle e { s with inputs := es }

/-- The machine with a table word as what its next step fetches and runs (notes/assumptions/6.md). -/
def State.withFetchWord (s : State) (nbits w : Nat) : State :=
  match tableEncoding nbits w with
  | none => s
  | some e => placeEncoding e s

end Sys2Proof.Machine
end

