-- ==== Sys2Proof/Machine/LevelA.lean ====
section
/-! DEFINITION. Level A: ENCODE and DECODE as functions (rules R130, R161). Normative (R16); the byte steps of
Machine/Encoder.lean and Machine/Decoder.lean must agree with them (R141, R168). -/

namespace Sys2Proof.Machine

/-- ENCODE as a function (R130): the error code and the bytes sent. -/
def encodeA (c : Byte) (p : List Byte) : ErrCode × List Byte :=
  if p.length > maxPayload then (.payloadTooLarge, []) else (.none, frame c p)

/-- What a DECODE hands back: a command and a payload, or one error (R150). -/
inductive DecodeResult where
  | ok (command : Byte) (payload : List Byte)
  | error (e : ErrCode)
  deriving DecidableEq, Repr

/-- The error code a result is reported with. -/
def DecodeResult.code : DecodeResult → ErrCode
  | .ok _ _ => .none
  | .error e => e

/-- The declared length of a byte sequence that is long enough to have one (R161, R55). -/
def declaredLen (bs : List Byte) : Nat := (joinLen (bs.getD 2 0#8) (bs.getD 3 0#8)).toNat

/-- `S[4..4 + L]`. -/
def framePayload (bs : List Byte) : List Byte := (bs.drop 4).take (declaredLen bs)

/-- DecodeA (R161): the result and the count of bytes consumed, for the bytes the link delivers before it times
out. -/
def decodeA (bs : List Byte) : DecodeResult × Nat :=
  if bs.length = 0 then (.error .timeout, 0)
  else if bs.getD 0 0#8 ≠ sof then (.error .badStartByte, 1)
  else if bs.length < 4 then (.error .truncated, bs.length)
  else if bs.length < declaredLen bs + 6 then (.error .truncated, bs.length)
  else if bs.getD (5 + declaredLen bs) 0#8 ≠ eof then (.error .badEndByte, declaredLen bs + 6)
  else if bs.getD (4 + declaredLen bs) 0#8 ≠ checksum (framePayload bs) then
    (.error .checksumMismatch, declaredLen bs + 6)
  else (.ok (bs.getD 1 0#8) (framePayload bs), declaredLen bs + 6)

end Sys2Proof.Machine
end

