-- ==== Sys2Proof/Safety.lean ====
section
/-! DEFINITION. What claims are stated in: the invariant of the machine, and what "unchanged" means. -/

namespace Sys2Proof.Machine

/-- What is true between two byte steps of an operation (R24, R28, R29, R137, R118): `done` is 0, `idx` counts the
payload bytes moved, and `acc` is the checksum of exactly those. -/
def phaseInv (s : State) : Prop :=
  match s.phase with
  | .idle => True
  | .eSof | .eCmd | .eLenh | .eLenl => s.done = false ∧ s.idx = 0#16 ∧ s.acc = ckInit
  | .ePay => s.done = false ∧ s.idx.toNat < s.len.toNat ∧ s.acc = checksum (txPayload s s.idx.toNat)
  | .eCk | .eEof => s.done = false ∧ s.idx = s.len ∧ s.acc = checksum (txPayload s s.len.toNat)
  | .dSof | .dCmd | .dLenh | .dLenl => s.done = false
  | .dPay =>
    s.done = false ∧ s.idx.toNat < s.len.toNat ∧ (∀ i < s.idx.toNat, (memRead s.rxbuf i).isSome) ∧
      s.acc = checksum (rxPayload s s.idx.toNat)
  | .dCk | .dEof =>
    s.done = false ∧ s.idx = s.len ∧ (∀ i < s.len.toNat, (memRead s.rxbuf i).isSome) ∧
      s.acc = checksum (rxPayload s s.len.toNat)

/-- The invariant: both buffers in canonical form and inside their 65535 bytes, and `phaseInv`. -/
def Inv (s : State) : Prop := Memory.wf s.txbuf = true ∧ Memory.wf s.rxbuf = true ∧ phaseInv s

/-- The state `reset` leaves the block in (R38): idle, `done` and `err` 0, no register of the data path and no byte of
a buffer holds a value. -/
def ResetValues (s : State) : Prop :=
  s.phase = .idle ∧ s.done = false ∧ s.err = .none ∧ s.known = Known.nothing ∧
  ∀ i, memRead s.txbuf i = none ∧ memRead s.rxbuf i = none

/-- Both buffers read the same at every index. -/
def SameBuffers (s t : State) : Prop :=
  ∀ i, memRead t.txbuf i = memRead s.txbuf i ∧ memRead t.rxbuf i = memRead s.rxbuf i

/-- Both streams are as they were. -/
def SameStreams (s t : State) : Prop := t.linkRx = s.linkRx ∧ t.linkTx = s.linkTx

/-- The host's side is as it was, but for what waits to be offered: session, the last read, the last transaction, the
link's last report, the facade's last verdict. -/
def SameHost (s t : State) : Prop :=
  t.session = s.session ∧ t.readout = s.readout ∧ t.bridge = s.bridge ∧ t.linkReply = s.linkReply ∧
  t.facade = s.facade

/-- What a DECODE leaves alone whatever its result (R54, R150): TXBUF at every index, LINK_TX, the host's side, the
counters of the free values. -/
def ReceiveLeaves (s t : State) : Prop :=
  (∀ i, memRead t.txbuf i = memRead s.txbuf i) ∧ t.linkTx = s.linkTx ∧ SameHost s t ∧ t.draws = s.draws ∧
  t.encodes = s.encodes

/-- What the sending of a frame leaves alone (R54, R133, R140): both buffers at every index, LINK_RX, `rxck`, the host's
side, the counter of the other free values. -/
def SendLeaves (s t : State) : Prop :=
  SameBuffers s t ∧ t.linkRx = s.linkRx ∧ t.rxck = s.rxck ∧ SameHost s t ∧ t.draws = s.draws

/-- The state a DECODE leaves for the result `r` (R166): idle and done with the result's code, and on success the
command, the length, the payload and nothing above it in RXBUF, the checksum in both checksum registers; after an
error nothing that holds a value. -/
def DecodeLeaves (r : DecodeResult) (t : State) : Prop :=
  t.phase = .idle ∧ t.done = true ∧ t.err = r.code ∧
  match r with
  | .ok c p =>
    t.cmd = c ∧ t.len.toNat = p.length ∧ t.idx = t.len ∧ t.acc = checksum p ∧ t.rxck = checksum p ∧
      t.known = Known.everything ∧ memHolds t.rxbuf p ∧ ∀ i, p.length ≤ i → memRead t.rxbuf i = none
  | .error _ => t.known = Known.nothing ∧ ∀ i, memRead t.rxbuf i = none

/-- The registers after a successful ENCODE of the command `c` and the payload `p` (R140). -/
def EncodeRegisters (c : Byte) (p : List Byte) (t : State) : Prop :=
  t.phase = .idle ∧ t.done = true ∧ t.err = .none ∧ t.cmd = c ∧ t.len.toNat = p.length ∧ t.idx = t.len ∧
  t.acc = checksum p

/-- `p` is a payload of `n` bytes that agrees with TXBUF wherever the host has written a byte of it. -/
def PayloadOf (s : State) (n : Nat) (p : List Byte) : Prop :=
  p.length = n ∧ ∀ i < n, ∀ b, memRead s.txbuf i = some b → p[i]? = some b

/-- The events with which the link answers the reads of a DECODE when it has the bytes `bs` to deliver before it times
out: a byte for each that is consumed (R161), and a timeout where the bytes do not last. -/
def linkAnswers (bs : List Byte) : List Input :=
  List.replicate (decodeA bs).2 .rx ++
    (if (decodeA bs).1 = .error .timeout ∨ (decodeA bs).1 = .error .truncated then [.rxTimeout] else [])

/-- `k` steps, stopping at the first that gives no next state. -/
def steps : Nat → State → Host.Outcome State Fault Refusal
  | 0, s => .next s
  | k + 1, s =>
    match step s with
    | .next t => steps k t
    | .fault r => .fault r
    | .refused r => .refused r

/-- The inputs that are a host transaction, a facade's among them. -/
def Input.isTransceive : Input → Bool
  | .transceive _ _ _ _ | .call _ _ _ => true
  | .reset | .start _ _ _ | .txAccept | .rx | .rxTimeout | .transfer | .arrive _ | .discard | .hostWrite _ _
  | .hostRead _ | .openLink _ _ | .closeLink | .linkFails _ | .writeFails => false

/-- The inputs that say something of the session (R197). -/
def Input.isSession : Input → Bool
  | .openLink _ _ | .closeLink | .linkFails _ => true
  | .reset | .start _ _ _ | .txAccept | .rx | .rxTimeout | .transfer | .arrive _ | .discard | .hostWrite _ _
  | .hostRead _ | .writeFails | .transceive _ _ _ _ | .call _ _ _ => false

/-- The inputs that are a `start` event. -/
def Input.isStart : Input → Bool
  | .start _ _ _ => true
  | .reset | .txAccept | .rx | .rxTimeout | .transfer | .arrive _ | .discard | .hostWrite _ _ | .hostRead _
  | .openLink _ _ | .closeLink | .linkFails _ | .writeFails | .transceive _ _ _ _ | .call _ _ _ => false

/-- The inputs that write a byte of TXBUF. -/
def Input.isHostWrite : Input → Bool
  | .hostWrite _ _ => true
  | .reset | .start _ _ _ | .txAccept | .rx | .rxTimeout | .transfer | .arrive _ | .discard | .hostRead _
  | .openLink _ _ | .closeLink | .linkFails _ | .writeFails | .transceive _ _ _ _ | .call _ _ _ => false

/-- What a transaction's caller gets for a DECODE result (R199 steps 4 and 5). -/
def bridgeOfResult : DecodeResult → BridgeResult
  | .ok _ p => .payload p
  | .error .timeout => .failed .timeout
  | .error .badStartByte => .failed .badStartByte
  | .error .truncated => .failed .truncated
  | .error .badEndByte => .failed .badEndByte
  | .error .checksumMismatch => .failed .checksumMismatch
  | .error .payloadTooLarge => .failed .payloadTooLarge
  | .error .none => .payload []

end Sys2Proof.Machine
end

