-- ==== Sys2Proof/Certificates/Slice0/Obligations.lean ====
section
/-! DEFINITION. The statements for the provers, in the order of the spec's files. Each docstring names the rules of
spec/ it formalises, or says which of the model's own choices it rests on. -/

open Sys2Proof Sys2Proof.Machine

-- Reset and state (10_state.md, 70_reset_and_hazards.md)

/-- R38. The state after reset, and the `reset` event in any phase: idle, `done` and `err` 0, no register of the data path
and no byte of a buffer holds a value; bytes sent stay sent, bytes consumed stay consumed. -/
def Obligations.ResetLeavesIdleWithoutValues : Prop :=
  ResetValues State.reset ∧
  ∀ (s : State) (es : List Input), s.inputs = .reset :: es →
    ∃ t, step s = .next t ∧ ResetValues t ∧ SameStreams s t ∧ SameHost s t ∧ t.inputs = es

/-- R36. Without an event the block holds its state. -/
def Obligations.BlockHoldsWithoutEvent : Prop :=
  ∀ s : State, s.inputs = [] → step s = .next s

/-- R31. `busy`, `tx_valid` and `rx_want` are the named functions of `phase`, and the last two are never 1 together. -/
def Obligations.DerivedFlagsFollowPhase : Prop :=
  ∀ s : State,
    (busy s = true ↔ s.phase ≠ .idle) ∧
    (txValid s = true ↔ s.phase ∈ [Phase.eSof, .eCmd, .eLenh, .eLenl, .ePay, .eCk, .eEof]) ∧
    (rxWant s = true ↔ s.phase ∈ [Phase.dSof, .dCmd, .dLenh, .dLenl, .dPay, .dCk, .dEof]) ∧
    ¬ (txValid s = true ∧ rxWant s = true)

/-- R30, of the codes alone: the seven results have the codes 0 to 6, and 7 is the code of none. -/
def Obligations.ErrorCodesAreZeroToSix : Prop :=
  (errNumber .none = 0#3 ∧ errNumber .timeout = 1#3 ∧ errNumber .badStartByte = 2#3 ∧ errNumber .truncated = 3#3 ∧
    errNumber .badEndByte = 4#3 ∧ errNumber .checksumMismatch = 5#3 ∧ errNumber .payloadTooLarge = 6#3) ∧
  ∀ e, errNumber e ≠ 7#3

/-- R29, R232. In an idle block `done`, `err` and the data registers keep the last result through every event but a
`start`, a `reset` and a host transaction, which begins with them. -/
def Obligations.ResultsStayUntilNextStart : Prop :=
  ∀ (s t : State) (e : Input) (es : List Input), s.inputs = e :: es → s.phase = .idle → e.isStart = false →
    e ≠ .reset → e.isTransceive = false → step s = .next t →
    t.phase = .idle ∧ t.done = s.done ∧ t.err = s.err ∧ t.acc = s.acc ∧ t.cmd = s.cmd ∧ t.len = s.len ∧
    t.idx = s.idx ∧ t.rxck = s.rxck ∧ t.known = s.known ∧ ∀ i, memRead t.rxbuf i = memRead s.rxbuf i

-- The checksum unit (40_checksum.md)

/-- R111, R112, R114. The bit step in the two forms of R111, on numbers and on bits; the byte step as eight bit steps
after one exclusive or; the checksum as the accumulator that starts at 0xFF and takes each byte in order. -/
def Obligations.ChecksumFollowsItsThreeRules : Prop :=
  (∀ a : Byte,
    (bitStep a).toNat =
      (if a.getLsbD 7 then ((a.toNat <<< 1) ^^^ 0x31) &&& 0xFF else (a.toNat <<< 1) &&& 0xFF) ∧
    bitStep a = (a.extractLsb' 0 7 ++ 0#1 : BitVec 8) ^^^ (if a.getLsbD 7 then 0x31#8 else 0x00#8)) ∧
  (∀ a b : Byte, byteStep a b = bitStep^[8] (a ^^^ b)) ∧
  (checksum [] = 0xFF#8 ∧ ∀ (p : List Byte) (b : Byte), checksum (p ++ [b]) = byteStep (checksum p) b)

/-- R115. The two values the document states, and the eight bit steps of the second. -/
def Obligations.ChecksumHasTheStatedValues : Prop :=
  checksum [] = 0xFF#8 ∧ checksum [0x00#8] = 0xAC#8 ∧
  (List.range 9).map (fun n => bitStep^[n] 0xFF#8) =
    [0xFF#8, 0xCF#8, 0xAF#8, 0x6F#8, 0xDE#8, 0x8D#8, 0x2B#8, 0x56#8, 0xAC#8]

/-- R116. CKINIT completes in every idle state: the accumulator is 0xFF, which the host then reads, `done` is 1, `err`
0, and nothing else is written; its two ignored operands may be anything. -/
def Obligations.CkinitSetsTheAccumulator : Prop :=
  (∀ (a : Byte) (plen : Nat), decodeStart 0#2 a plen = .ckinit) ∧
  ∀ s : State, s.phase = .idle →
    ∃ t, exec .ckinit s = .next t ∧ heldValue .acc t = some 0xFF#16 ∧ t.acc = checksum [] ∧
      t = { s with acc := 0xFF#8, done := true, err := .none, known := { s.known with acc := true } }

/-- R117. CKUPD completes in every idle state and writes `acc`, `done` and `err` alone. Where `acc` holds a value the new
one is the byte step of it (0 where the byte equals it); where it holds none the result holds none, and the number it
leaves is computed from a free value. `draws`, the number of that free value, is the model's own. -/
def Obligations.CkupdUpdatesTheAccumulator : Prop :=
  (∀ (a : Byte) (plen : Nat), decodeStart 1#2 a plen = .ckupd a) ∧
  (∀ (s : State) (a : Byte), s.phase = .idle → s.known.acc = true →
    exec (.ckupd a) s =
      .next { s with acc := byteStep s.acc a, done := true, err := .none, draws := s.draws + 1 }) ∧
  (∀ (s : State) (a : Byte), s.phase = .idle → s.known.acc = false →
    ∃ t, exec (.ckupd a) s = .next t ∧ heldValue .acc t = none ∧
      t = { s with acc := byteStep (Config.freeByte s.draws) a, done := true, err := .none, draws := s.draws + 1 }) ∧
  (∀ a : Byte, byteStep a a = 0x00#8) ∧ byteStep 0xFF#8 0x00#8 = 0xAC#8

/-- R21, R97 (COMPUTE). CKINIT and then one CKUPD for each byte leave the checksum of the bytes in `acc`, as a value the
host reads, and touch no stream and no buffer. -/
def Obligations.ComputeLeavesTheChecksum : Prop :=
  ∀ (s : State) (p : List Byte) (es : List Input), s.phase = .idle → s.inputs = computeInputs p ++ es →
    ∃ t, steps (p.length + 1) s = .next t ∧ t.acc = checksum p ∧
      heldValue .acc t = some ((checksum p).setWidth 16) ∧ t.phase = .idle ∧ t.done = true ∧ t.err = .none ∧
      t.cmd = s.cmd ∧ t.len = s.len ∧ t.idx = s.idx ∧ t.rxck = s.rxck ∧
      SameBuffers s t ∧ SameStreams s t ∧ SameHost s t ∧ t.inputs = es

/-- R120. The bit step and the byte step are bijections, in the accumulator and in the input byte. -/
def Obligations.ByteStepIsBijective : Prop :=
  Function.Bijective bitStep ∧ (∀ b, Function.Bijective fun a => byteStep a b) ∧ ∀ a, Function.Bijective (byteStep a)

/-- R120 (ii). Two sequences that differ in exactly one byte have different checksums. -/
def Obligations.OneChangedByteChangesTheChecksum : Prop :=
  ∀ (p q : List Byte) (x y : Byte), x ≠ y → checksum (p ++ x :: q) ≠ checksum (p ++ y :: q)

/-- R121. A sequence with its checksum appended has checksum 0. -/
def Obligations.ChecksumResidueIsZero : Prop :=
  ∀ p : List Byte, checksum (p ++ [checksum p]) = 0x00#8

/-- R122. The checksums of two sequences of one length differ by the Checksum0 of their difference. -/
def Obligations.ChecksumIsAffine : Prop :=
  ∀ p q : List Byte, p.length = q.length →
    checksum p ^^^ checksum q = checksumFrom 0x00#8 (List.zipWith (· ^^^ ·) p q)

-- The words (30_encoding.md)

/-- R80, R89, R90, R95. A few words written out from the spec: the four operation codes, one frame of each of the six
named ranges, one of each of the two unassigned ranges, and the ping request of section 8. -/
def Obligations.SpecWordsDecode : Prop :=
  decode (.start 0 0 0) = .instr .ckinit ∧ decode (.start 1 0x31 0) = .instr (.ckupd 0x31) ∧
  decode (.start 2 0x10 3) = .instr (.encode 0x10 3) ∧ decode (.start 3 0 0) = .instr .decode ∧
  decode (.wire [0xAA, 0x00, 0x00, 0x00, 0xFF, 0x55]) = .instr (.framePing 0xFF 0x55) ∧
  decode (.wire [0xAA, 0x01, 0x00, 0x01, 0x00, 0xAC, 0x55]) = .instr (.frameSys 1 ⟨[0], 0xAC, 0x55⟩) ∧
  decode (.wire [0xAA, 0x10, 0x00, 0x03, 0x01, 0x02, 0x03, 0x87, 0x55]) =
    .instr (.frameEth 0 ⟨[1, 2, 3], 0x87, 0x55⟩) ∧
  decode (.wire [0xAA, 0x3F, 0x00, 0x01, 0x80, 0xD6, 0x55]) = .instr (.frameTcp 15 ⟨[0x80], 0xD6, 0x55⟩) ∧
  decode (.wire [0xAA, 0x42, 0x00, 0x02, 0xAA, 0x55, 0x1B, 0x55]) =
    .instr (.frameRtc 2 ⟨[0xAA, 0x55], 0x1B, 0x55⟩) ∧
  decode (.wire [0xAA, 0x5F, 0x00, 0x04, 0xAA, 0x55, 0xAA, 0x55, 0xEE, 0x55]) =
    .instr (.frameI2c 15 ⟨[0xAA, 0x55, 0xAA, 0x55], 0xEE, 0x55⟩) ∧
  decode (.wire [0xAA, 0x21, 0x00, 0x02, 0x00, 0x00, 0x81, 0x55]) = .instr (.frameUdp 1 ⟨[0, 0], 0x81, 0x55⟩) ∧
  decode (.wire [0xAA, 0x7F, 0x00, 0x00, 0xFF, 0x55]) = .instr (.frameUnassigned6 0x1F ⟨[], 0xFF, 0x55⟩) ∧
  decode (.wire [0xAA, 0xFF, 0x00, 0x01, 0xFF, 0x00, 0x55]) = .instr (.frameUnassigned8 0x7F ⟨[0xFF], 0, 0x55⟩)

/-- R80, R84, R95. Every instruction that fits its encoding is what its encoding decodes to, with every operand at every
value the encoding admits: any command, any payload up to 65535 bytes, any checksum byte, any end byte. -/
def Obligations.DecodeUndoesEncode : Prop :=
  ∀ i : Instr, i.Encodable = true → decode (encode i) = .instr i

/-- R80, R91, R95. What decodes fits its encoding; a byte sequence that decodes to an instruction is that instruction's
encoding and no other; a `start` event that decodes to an operation has its operation code and the operands it uses. -/
def Obligations.EncodeUndoesDecode : Prop :=
  ∀ (e : Encoding) (i : Instr), decode e = .instr i →
    i.Encodable = true ∧ (∀ bs, e = .wire bs → encode i = e) ∧
    ∀ op a plen, e = .start op a plen →
      ∃ a' plen', encode i = .start op a' plen' ∧ (op = 1#2 ∨ op = 2#2 → a' = a) ∧ (op = 2#2 → plen' = plen)

/-- R134. A frame determines its command and payload, and no frame is a proper prefix of another. -/
def Obligations.FrameIsInjectiveAndPrefixFree : Prop :=
  ∀ (c c' : Byte) (p p' : List Byte), p.length ≤ maxPayload → p'.length ≤ maxPayload →
    frame c p <+: frame c' p' → c = c' ∧ p = p'

-- The encoder (41_encoder.md)

/-- R135. The accepting step of ENCODE, which completes in every idle state: for a payload above 65535 bytes `err` 6 and
`done`, nothing else; otherwise the registers of the rule. No byte is sent. `encodes`, the number that ENCODE's free
values are drawn with, and `known` are the model's own. -/
def Obligations.EncodeAcceptingStep : Prop :=
  (∀ (a : Byte) (plen : Nat), decodeStart 2#2 a plen = .encode a plen) ∧
  (∀ (s : State) (a : Byte) (plen : Nat), s.phase = .idle → plen > 65535 →
    exec (.encode a plen) s = .next { s with done := true, err := .payloadTooLarge }) ∧
  ∀ (s : State) (a : Byte) (plen : Nat), s.phase = .idle → plen ≤ 65535 →
    exec (.encode a plen) s = .next { s with
      done := false, cmd := a, len := BitVec.ofNat 16 plen, idx := 0#16, acc := 0xFF#8, phase := .eSof,
      known := { s.known with acc := true, cmd := true, len := true, idx := true }, encodes := s.encodes + 1 }

/-- R136. The byte offered in each phase. -/
def Obligations.OfferedByteOfEachPhase : Prop :=
  ∀ s : State,
    (s.phase = .eSof → offeredByte s = 0xAA#8) ∧ (s.phase = .eCmd → offeredByte s = s.cmd) ∧
    (s.phase = .eLenh → offeredByte s = s.len.extractLsb' 8 8) ∧
    (s.phase = .eLenl → offeredByte s = s.len.extractLsb' 0 8) ∧
    (s.phase = .ePay → ∀ b, memRead s.txbuf s.idx.toNat = some b → offeredByte s = b) ∧
    (s.phase = .eCk → offeredByte s = s.acc) ∧ (s.phase = .eEof → offeredByte s = 0x55#8)

/-- R138. The table of `tx_accept`: in each phase of an ENCODE the offered byte joins LINK_TX, the registers of the row
are written and no other, and the next phase is the row's. In these phases `start`, `rx(b)` and `rx_timeout` have no move,
and `reset` leaves what R38 says. -/
def Obligations.TxAcceptTable : Prop :=
  (∀ (s : State) (e : Input) (es : List Input), s.inputs = e :: es → txValid s = true →
    (e.isStart = true → step s = .refused .startWhileBusy) ∧
    (e = .rx ∨ e = .rxTimeout → step s = .refused .rxNotWanted) ∧
    (e = .reset → ∃ t, step s = .next t ∧ ResetValues t)) ∧
  ∀ (s : State) (es : List Input), s.inputs = .txAccept :: es →
    let u : State := { s with inputs := es, linkTx := s.linkTx ++ [offeredByte s] }
    let b := offeredByte s
    (s.phase = .eSof → step s = .next { u with phase := .eCmd }) ∧
    (s.phase = .eCmd → step s = .next { u with phase := .eLenh }) ∧
    (s.phase = .eLenh → step s = .next { u with phase := .eLenl }) ∧
    (s.phase = .eLenl → s.len = 0#16 → step s = .next { u with phase := .eCk }) ∧
    (s.phase = .eLenl → s.len ≠ 0#16 → step s = .next { u with phase := .ePay }) ∧
    (s.phase = .ePay → s.idx + 1#16 = s.len →
      step s = .next { u with acc := byteStep s.acc b, idx := s.idx + 1#16, phase := .eCk }) ∧
    (s.phase = .ePay → s.idx + 1#16 ≠ s.len →
      step s = .next { u with acc := byteStep s.acc b, idx := s.idx + 1#16, phase := .ePay }) ∧
    (s.phase = .eCk → step s = .next { u with phase := .eEof }) ∧
    (s.phase = .eEof → step s = .next { u with done := true, err := .none, phase := .idle })

/-- R130, R132, R140, R141. Level B of ENCODE is Level A: an ENCODE started in any idle state, with a payload of at most
65535 bytes and a link that takes `plen + 6` bytes, sends exactly the frame of its command and payload and ends as R140
says. The payload is TXBUF wherever the host has written it; a byte it has not written is a free value. That the link of a
Closed session takes the bytes too is the model's choice (notes/assumptions/21.md). -/
def Obligations.EncodeSendsExactlyItsFrame : Prop :=
  ∀ (s : State) (a : Byte) (plen : Nat) (es : List Input), s.phase = .idle → plen ≤ maxPayload →
    s.inputs = .start 2#2 a plen :: (List.replicate (plen + 6) .txAccept ++ es) →
    ∃ t p, steps (plen + 7) s = .next t ∧ PayloadOf s plen p ∧ EncodeRegisters a p t ∧
      t.linkTx = s.linkTx ++ frame a p ∧ SendLeaves s t ∧ t.inputs = es

/-- R61, R130, R132. The link serves a whole ENCODE in one transition: from phase E_SOF the frame of `cmd` and
`TXBUF[0..len]` is sent. The invariant is the premise that `idx` and `acc` are as the accepting step left them. The
event that does it in one transition, and that the link of a Closed session takes the bytes too, is the model's choice
(notes/assumptions/6.md, 21.md). -/
def Obligations.TransferSendsTheFrame : Prop :=
  ∀ (s : State) (es : List Input), s.phase = .eSof → Inv s → s.inputs = .transfer :: es →
    ∃ t p, step s = .next t ∧ PayloadOf s s.len.toNat p ∧ EncodeRegisters s.cmd p t ∧
      t.linkTx = s.linkTx ++ frame s.cmd p ∧ SendLeaves s t ∧ t.inputs = es

-- The decoder (42_decoder.md)

/-- R162. The accepting step of DECODE, which completes in every idle state whatever the ignored operands are: `done` 0,
the phase D_SOF, nothing else, and no byte is consumed. -/
def Obligations.DecodeAcceptingStep : Prop :=
  (∀ (a : Byte) (plen : Nat), decodeStart 3#2 a plen = .decode) ∧
  ∀ s : State, s.phase = .idle → exec .decode s = .next { s with done := false, phase := .dSof }

/-- R163. The table of `rx(b)`, `b` the oldest pending byte, which leaves LINK_RX. In these phases `start` and
`tx_accept` have no move, and `reset` leaves what R38 says. In the rows that end the operation RXBUF and `known` are the
model's account of R51 and R166: after an error nothing holds a value, after a success `RXBUF[0..len]` does (the model's
own, notes/assumptions/4.md). -/
def Obligations.RxTable : Prop :=
  (∀ (s : State) (e : Input) (es : List Input), s.inputs = e :: es → rxWant s = true →
    (e.isStart = true → step s = .refused .startWhileBusy) ∧ (e = .txAccept → step s = .refused .txNotOffered) ∧
    (e = .reset → ∃ t, step s = .next t ∧ ResetValues t)) ∧
  ∀ (s : State) (b : Byte) (rest : List Byte) (es : List Input), s.inputs = .rx :: es → s.linkRx = b :: rest →
    let u : State := { s with inputs := es, linkRx := rest }
    let failed (e : ErrCode) : State :=
      { u with done := true, err := e, phase := .idle, rxbuf := [], known := Known.nothing }
    (s.phase = .dSof → b = 0xAA#8 → step s = .next { u with phase := .dCmd }) ∧
    (s.phase = .dSof → b ≠ 0xAA#8 → step s = .next (failed .badStartByte)) ∧
    (s.phase = .dCmd → step s = .next { u with cmd := b, phase := .dLenh }) ∧
    (s.phase = .dLenh → step s = .next { u with len := b ++ s.len.extractLsb' 0 8, phase := .dLenl }) ∧
    (s.phase = .dLenl → (s.len.extractLsb' 8 8 ++ b : BitVec 16) = 0#16 →
      step s = .next { u with len := s.len.extractLsb' 8 8 ++ b, idx := 0#16, acc := 0xFF#8, phase := .dCk }) ∧
    (s.phase = .dLenl → (s.len.extractLsb' 8 8 ++ b : BitVec 16) ≠ 0#16 →
      step s = .next { u with len := s.len.extractLsb' 8 8 ++ b, idx := 0#16, acc := 0xFF#8, phase := .dPay }) ∧
    (s.phase = .dPay → s.idx + 1#16 = s.len → ∃ m,
      step s = .next { u with rxbuf := m, acc := byteStep s.acc b, idx := s.idx + 1#16, phase := .dCk } ∧
      ∀ i, memRead m i = if i = s.idx.toNat then some b else memRead s.rxbuf i) ∧
    (s.phase = .dPay → s.idx + 1#16 ≠ s.len → ∃ m,
      step s = .next { u with rxbuf := m, acc := byteStep s.acc b, idx := s.idx + 1#16, phase := .dPay } ∧
      ∀ i, memRead m i = if i = s.idx.toNat then some b else memRead s.rxbuf i) ∧
    (s.phase = .dCk → step s = .next { u with rxck := b, phase := .dEof }) ∧
    (s.phase = .dEof → b ≠ 0x55#8 → step s = .next (failed .badEndByte)) ∧
    (s.phase = .dEof → b = 0x55#8 → s.rxck ≠ s.acc → step s = .next (failed .checksumMismatch)) ∧
    (s.phase = .dEof → b = 0x55#8 → s.rxck = s.acc → ∃ m,
      step s = .next { u with done := true, err := .none, phase := .idle, rxbuf := m, known := Known.everything } ∧
      ∀ i, memRead m i = if i < s.len.toNat then memRead s.rxbuf i else none)

/-- R164. The table of `rx_timeout`: Timeout before any byte of the frame, Truncated after. No byte is consumed. -/
def Obligations.RxTimeoutTable : Prop :=
  ∀ (s : State) (es : List Input), s.inputs = .rxTimeout :: es →
    let failed (e : ErrCode) : State :=
      { s with inputs := es, done := true, err := e, phase := .idle, rxbuf := [], known := Known.nothing }
    (s.phase = .dSof → step s = .next (failed .timeout)) ∧
    (s.phase ∈ [Phase.dCmd, .dLenh, .dLenl, .dPay, .dCk, .dEof] → step s = .next (failed .truncated))

/-- R168. Level B of DECODE is Level A: started in any idle state and answered byte by byte with what the link has to
deliver, and with a timeout where that does not last, DECODE on an open link ends with the result, the
registers and the payload that `DecodeA` gives, and leaves pending exactly what `DecodeA` does not consume. -/
def Obligations.DecodeAgreesWithLevelA : Prop :=
  ∀ (s : State) (a : Byte) (plen : Nat) (es : List Input), s.phase = .idle → s.session ≠ .closed →
    s.inputs = .start 3#2 a plen :: (linkAnswers s.linkRx ++ es) →
    ∃ t, steps ((linkAnswers s.linkRx).length + 1) s = .next t ∧ DecodeLeaves (decodeA s.linkRx).1 t ∧
      t.linkRx = s.linkRx.drop (decodeA s.linkRx).2 ∧ ReceiveLeaves s t ∧ t.inputs = es

/-- R61, R161. The link serves a whole DECODE in one transition, with the result of `DecodeA`. R61 allows one transition
whose input is the whole sequence the link delivers. The event that does it is the model's choice
(notes/assumptions/6.md); so is that the sequence, the S of R161, is exactly what is pending in LINK_RX, with a timeout
at once where it does not last (notes/assumptions/7.md), and that the link serves a DECODE whose session is Closed too
(notes/assumptions/21.md). -/
def Obligations.TransferDecodesAsLevelA : Prop :=
  ∀ (s : State) (es : List Input), s.phase = .dSof → s.inputs = .transfer :: es →
    ∃ t, step s = .next t ∧ DecodeLeaves (decodeA s.linkRx).1 t ∧
      t.linkRx = s.linkRx.drop (decodeA s.linkRx).2 ∧ ReceiveLeaves s t ∧ t.inputs = es

/-- R165, R161. How many bytes each result consumes, and that nothing beyond them is looked at. -/
def Obligations.DecodeConsumesTheStatedBytes : Prop :=
  ∀ (bs : List Byte) (r : DecodeResult) (n : Nat), decodeA bs = (r, n) →
    n ≤ bs.length ∧
    (r = .error .timeout → bs = [] ∧ n = 0) ∧
    (r = .error .badStartByte → n = 1) ∧
    (r = .error .truncated → n = bs.length ∧ 1 ≤ n ∧ (4 ≤ n → n < declaredLen bs + 6)) ∧
    (r = .error .badEndByte ∨ r = .error .checksumMismatch ∨ (∃ c p, r = .ok c p) → n = declaredLen bs + 6) ∧
    (r ≠ .error .timeout → r ≠ .error .truncated → ∀ later, decodeA (bs.take n ++ later) = (r, n))

/-- R169. Decoding a frame, whatever follows it, gives back its command and payload and consumes exactly the frame. -/
def Obligations.DecodeOfFrameGivesItBack : Prop :=
  ∀ (c : Byte) (p later : List Byte), p.length ≤ maxPayload →
    decodeA (frame c p ++ later) = (.ok c p, p.length + 6)

/-- R170. A proper prefix of a frame is Timeout where it is empty and Truncated otherwise, all of it consumed. -/
def Obligations.ProperPrefixIsTruncated : Prop :=
  ∀ (c : Byte) (p q : List Byte), p.length ≤ maxPayload → q <+: frame c p → q ≠ frame c p →
    decodeA q = if q = [] then (.error .timeout, 0) else (.error .truncated, q.length)

/-- R173. What a frame with one changed field decodes to: start byte, command, one payload byte, checksum byte, end byte
(with any checksum byte; the end byte is looked at first, as R157 reads the document, decision D14). -/
def Obligations.CorruptedFieldResults : Prop :=
  ∀ (c : Byte) (p later : List Byte), p.length ≤ maxPayload →
    (∀ b, b ≠ 0xAA#8 → decodeA (b :: (frame c p).tail ++ later) = (.error .badStartByte, 1)) ∧
    (∀ c', decodeA (wire c' p (checksum p) 0x55#8 ++ later) = (.ok c' p, p.length + 6)) ∧
    (∀ q r x y, p = q ++ x :: r → x ≠ y →
      decodeA (wire c (q ++ y :: r) (checksum p) 0x55#8 ++ later) = (.error .checksumMismatch, p.length + 6)) ∧
    (∀ k, k ≠ checksum p → decodeA (wire c p k 0x55#8 ++ later) = (.error .checksumMismatch, p.length + 6)) ∧
    (∀ k e, e ≠ 0x55#8 → decodeA (wire c p k e ++ later) = (.error .badEndByte, p.length + 6))

-- The frame classes (30_encoding.md R88, R98)

/-- R150, R158, R166 for FRAME.SYS, FRAME.ETH, FRAME.UDP, FRAME.TCP, FRAME.RTC, FRAME.I2C, FRAME.UNASSIGNED_60_7F,
FRAME.UNASSIGNED_80_FF and FRAME.PING (constructors frameSys, frameEth, frameUdp, frameTcp, frameRtc, frameI2c,
frameUnassigned6, frameUnassigned8, framePing). A well-formed frame of any class completes in every state whose DECODE
waits for its start byte: the DECODE succeeds with the frame's command and payload. What is pending behind the frame,
and all that a DECODE leaves alone, is unchanged. That it is received whatever the session is the model's choice
(notes/assumptions/21.md). -/
def Obligations.WellFormedFrameIsReceived : Prop :=
  ∀ (i : Instr) (c : Byte) (f : Body) (s : State), i.frameParts = some (c, f) → i.WellFormed = true →
    s.phase = .dSof →
    ∃ t, exec i s = .next t ∧ DecodeLeaves (.ok c f.payload) t ∧ t.linkRx = s.linkRx ∧ ReceiveLeaves s t ∧
      t.inputs = s.inputs

/-- R155, R156, R157 for the same nine classes: a frame that fits its encoding but has a wrong end byte, or the right end
byte and a wrong checksum byte, ends the DECODE with BadEndByte or ChecksumMismatch, with no result. That a wrong end byte
decides whatever the checksum byte is the spec's own reading, decision D14, a choice the model follows
(notes/assumptions/8.md); that the frame is taken whatever the session is the model's choice (notes/assumptions/21.md). -/
def Obligations.IllFormedFrameIsRejected : Prop :=
  ∀ (i : Instr) (c : Byte) (f : Body) (s : State), i.frameParts = some (c, f) → i.Encodable = true →
    s.phase = .dSof →
    (f.stop ≠ 0x55#8 →
      ∃ t, exec i s = .next t ∧ DecodeLeaves (.error .badEndByte) t ∧ t.linkRx = s.linkRx ∧ ReceiveLeaves s t ∧
        t.inputs = s.inputs) ∧
    (f.stop = 0x55#8 → f.ck ≠ checksum f.payload →
      ∃ t, exec i s = .next t ∧ DecodeLeaves (.error .checksumMismatch) t ∧ t.linkRx = s.linkRx ∧
        ReceiveLeaves s t ∧ t.inputs = s.inputs)

/-- R130, R132 for the same nine classes: a well-formed frame completes in every state whose ENCODE is about to send it,
that is, whose `cmd` is its command and whose TXBUF holds its payload of `len` bytes; it is appended to LINK_TX. That the
link of a Closed session takes it too is the model's choice (notes/assumptions/21.md). -/
def Obligations.WellFormedFrameIsSent : Prop :=
  ∀ (i : Instr) (c : Byte) (f : Body) (s : State), i.frameParts = some (c, f) → i.WellFormed = true →
    s.phase = .eSof → Inv s → s.cmd = c → s.len.toNat = f.payload.length → memHolds s.txbuf f.payload →
    ∃ t, exec i s = .next t ∧ EncodeRegisters c f.payload t ∧ t.linkTx = s.linkTx ++ bodyBytes c f ∧
      SendLeaves s t ∧ t.inputs = s.inputs

/-- R235, R271 for the same nine classes. A frame that meets a block which is not reading, and which is not about to
send it, is not taken: it waits at the head of LINK_RX, and nothing else changes. R235 and R271 say that the bytes wait.
That the frame is the oldest of the stream, so that it waits at the head, and that a frame other than the one offered
waits in phase E_SOF, is the model's choice (notes/assumptions/14.md). -/
def Obligations.FrameWaitsUnlessRead : Prop :=
  ∀ (i : Instr) (c : Byte) (f : Body) (s : State), i.frameParts = some (c, f) → rxWant s = false →
    (s.phase = .eSof → offeredBytes s ≠ bodyBytes c f) →
    exec i s = .next { s with linkRx := bodyBytes c f ++ s.linkRx }

/-- R54, R59 for the same nine classes: whatever the phase and the bytes of the frame, a frame that meets the block
leaves TXBUF alone at every index and the host's side; where the block is not sending it leaves LINK_TX alone, and where
the block is not reading it leaves RXBUF alone at every index, `cmd`, `len` and `rxck`. -/
def Obligations.PassingFrameLeavesTheRest : Prop :=
  ∀ (i : Instr) (c : Byte) (f : Body) (s t : State), i.frameParts = some (c, f) → exec i s = .next t →
    (∀ j, memRead t.txbuf j = memRead s.txbuf j) ∧ SameHost s t ∧ t.inputs = s.inputs ∧ t.draws = s.draws ∧
    t.encodes = s.encodes ∧
    (txValid s = false → t.linkTx = s.linkTx) ∧
    (rxWant s = false → t.rxck = s.rxck ∧ t.cmd = s.cmd ∧ t.len = s.len ∧ t.known = s.known ∧
      ∀ j, memRead t.rxbuf j = memRead s.rxbuf j)

/-- R54, R116, R117, R135, R162: what the four operations leave alone when they answer a next state. Both buffers at
every index, both streams, `rxck`, the host's side; for CKINIT and CKUPD `cmd`, `len` and `idx` too; for DECODE every
data register and `err`; for an ENCODE that is too large every data register. -/
def Obligations.OperationsLeaveTheRest : Prop :=
  ∀ (i : Instr) (s t : State), i.frameParts = none → exec i s = .next t →
    SameBuffers s t ∧ SameStreams s t ∧ SameHost s t ∧ t.inputs = s.inputs ∧ t.rxck = s.rxck ∧
    t.known.rxck = s.known.rxck ∧
    (i = .ckinit ∨ (∃ a, i = .ckupd a) → t.phase = s.phase ∧ t.cmd = s.cmd ∧ t.len = s.len ∧ t.idx = s.idx ∧
      t.encodes = s.encodes ∧
      t.known.cmd = s.known.cmd ∧ t.known.len = s.known.len ∧ t.known.idx = s.known.idx) ∧
    (i = .decode ∨ (∃ a n, i = .encode a n ∧ n > 65535) → t.acc = s.acc ∧ t.cmd = s.cmd ∧ t.len = s.len ∧
      t.idx = s.idx ∧ t.known = s.known ∧ t.draws = s.draws ∧ t.encodes = s.encodes) ∧
    (i = .decode → t.err = s.err) ∧ (∀ a n, i = .encode a n → t.draws = s.draws)

-- What has no move (70_reset_and_hazards.md)

/-- R270. A `start` has no move while the block is busy, whatever operation it selects. -/
def Obligations.StartHasNoMoveWhileBusy : Prop :=
  ∀ (s : State) (op : BitVec 2) (a : Byte) (plen : Nat) (es : List Input), s.phase ≠ .idle →
    s.inputs = .start op a plen :: es → step s = .refused .startWhileBusy

/-- R273. `tx_accept` has no move when `tx_valid = 0`, `rx(b)` and `rx_timeout` have none when `rx_want = 0`. -/
def Obligations.LinkEventsNeedTheirFlag : Prop :=
  (∀ (s : State) (es : List Input), s.inputs = .txAccept :: es → txValid s = false → step s = .refused .txNotOffered) ∧
  ∀ (s : State) (e : Input) (es : List Input), s.inputs = e :: es → e = .rx ∨ e = .rxTimeout → rxWant s = false →
    step s = .refused .rxNotWanted

-- Ordering and isolation (20_memory.md)

/-- R53, R54. LINK_TX only grows, in every step; and it is changed by no event but an accepted byte, the serving of a
whole operation and a host transaction. -/
def Obligations.LinkTxOnlyGrows : Prop :=
  ∀ s t : State, step s = .next t →
    s.linkTx <+: t.linkTx ∧
    ((∀ e ∈ s.inputs.head?, e ≠ .txAccept ∧ e ≠ .transfer ∧ e.isTransceive = false) → t.linkTx = s.linkTx)

/-- R50, R51, R54. Only the host writes TXBUF (`reset` makes it hold no value), and only a running DECODE writes RXBUF. -/
def Obligations.OnlyTheirWritersReachTheBuffers : Prop :=
  ∀ (s t : State) (e : Input) (es : List Input), s.inputs = e :: es → step s = .next t → e ≠ .reset →
    e.isTransceive = false →
    (e.isHostWrite = false → ∀ i, memRead t.txbuf i = memRead s.txbuf i) ∧
    (e ≠ .rx → e ≠ .rxTimeout → (e = .transfer → rxWant s = false) → ∀ i, memRead t.rxbuf i = memRead s.rxbuf i)

/-- R24, R28, R29, R137, R118. The invariant is kept by every step from every state that has it: the buffers stay in
canonical form and inside their 65535 bytes, `done` is 0 while an operation runs, `idx` counts the payload bytes moved and
never passes `len`, and `acc` is the checksum of exactly those bytes. -/
def Obligations.EveryStepKeepsTheInvariant : Prop :=
  ∀ s t : State, Inv s → step s = .next t → Inv t

/-- The invariant holds right after reset. -/
def Obligations.InvariantHoldsAtReset : Prop := Inv State.reset

-- Running instructions (10_state.md R34, R36)

/-- R32, R95. A step on `start` runs the operation its operands decode to, on the state without that input. The host
does not start a DECODE on a closed link (R207); that this has no move is StartOfDecodeOnClosedLinkHasNoMove. -/
def Obligations.StepRunsTheStartedOperation : Prop :=
  ∀ (s : State) (op : BitVec 2) (a : Byte) (plen : Nat) (i : Instr) (es : List Input),
    s.inputs = .start op a plen :: es → decode (.start op a plen) = .instr i → op ≠ 3#2 ∨ s.session ≠ .closed →
    step s = exec i { s with inputs := es }

/-- R80, R150. When the bytes at the head of LINK_RX decode to a frame and a DECODE waits for its start byte, the step
in which the link serves it runs that frame, on the state with the frame's bytes taken from LINK_RX. The event that does
it in one transition, and that the link serves a DECODE whose session is Closed too, is the model's choice
(notes/assumptions/6.md, 21.md). -/
def Obligations.StepRunsTheFetchedFrame : Prop :=
  ∀ (s : State) (bs rest : List Byte) (i : Instr) (es : List Input), s.inputs = .transfer :: es → s.phase = .dSof →
    s.linkRx = bs ++ rest → decode (.wire bs) = .instr i →
    step s = exec i { s with inputs := es, linkRx := rest }

-- The host and the link around the block (43_environment.md)

/-- R50, R69. A host write to TXBUF while the block is idle stores its byte at its index and changes nothing else; an
index that does not exist faults; while the block is busy there is no move (R50 gives the host the idle block only: the
model's reading for a DECODE, notes/assumptions/5.md). -/
def Obligations.HostWritesOneByteOfTxbuf : Prop :=
  ∀ (s : State) (i : Nat) (b : Byte) (es : List Input), s.inputs = .hostWrite i b :: es →
    (i < 65535 → s.phase = .idle → ∃ m, step s = .next { s with inputs := es, txbuf := m } ∧
      ∀ j, memRead m j = if j = i then some b else memRead s.txbuf j) ∧
    (65535 ≤ i → step s = .fault .bufferIndexOutOfRange) ∧
    (i < 65535 → s.phase ≠ .idle → step s = .refused .txbufWriteWhileBusy)

/-- R26, R37, R51, R272. A host read gives the value a location holds and changes nothing else; where it holds none it
gives a free value; an index that does not exist faults, and RXBUF has no move during a DECODE. In an idle block `done`,
`err` and the derived flags hold a value, a data register does where `known` says so and only there, RXBUF does at the
indices it lists and only there; a busy block holds none for the host. `readout`, `draws` and `known` are the model's
own (notes/assumptions/4.md), the refusal and the fault are notes/assumptions/5.md. -/
def Obligations.HostReadsWhatIsHeld : Prop :=
  (∀ (s : State) (r : HostReg) (es : List Input), s.inputs = .hostRead r :: es →
    ((∃ i, r = .rxbuf i ∧ 65535 ≤ i) → step s = .fault .bufferIndexOutOfRange) ∧
    ((∃ i, r = .rxbuf i ∧ i < 65535) → rxWant s = true → step s = .refused .rxbufReadDuringDecode) ∧
    ((∀ i, r = .rxbuf i → i < 65535 ∧ rxWant s = false) →
      (∀ v, heldValue r s = some v → step s = .next { s with inputs := es, readout := v }) ∧
      (heldValue r s = none → ∃ v, step s = .next { s with inputs := es, readout := v, draws := s.draws + 1 }))) ∧
  (∀ s : State, s.phase ≠ .idle → ∀ r, heldValue r s = none) ∧
  ∀ s : State, s.phase = .idle →
    heldValue .done s = some (bitOf s.done) ∧ heldValue .err s = some ((errNumber s.err).setWidth 16) ∧
    heldValue .busy s = some 0#16 ∧ heldValue .txValid s = some 0#16 ∧ heldValue .rxWant s = some 0#16 ∧
    heldValue .acc s = (if s.known.acc then some (s.acc.setWidth 16) else none) ∧
    heldValue .cmd s = (if s.known.cmd then some (s.cmd.setWidth 16) else none) ∧
    heldValue .len s = (if s.known.len then some s.len else none) ∧
    ∀ i, heldValue (.rxbuf i) s = (memRead s.rxbuf i).map (fun b => b.setWidth 16)

/-- R52, R193, R235. A byte that arrives joins the pending input at its tail and changes nothing in the block, in every
phase; a discard empties the pending input and changes nothing else. Three clauses of this are choices and no words of
these rules: that both happen on a Closed session too, and that a discard acts while an operation runs, is the model's
(notes/assumptions/18.md); that a byte always joins, LINK_RX having no bound, is the spec's own decision D18, which the
model follows (notes/assumptions/9.md). -/
def Obligations.PendingInputIsAQueue : Prop :=
  (∀ (s : State) (b : Byte) (es : List Input), s.inputs = .arrive b :: es →
    step s = .next { s with inputs := es, linkRx := s.linkRx ++ [b] }) ∧
  ∀ (s : State) (es : List Input), s.inputs = .discard :: es → step s = .next { s with inputs := es, linkRx := [] }

/-- R197, R194, R196. A successful `open` opens the session with its configuration, one that fails reports its error and
opens nothing, `close` and an unrecoverable transport error close the session; nothing else changes, and no other event
changes the session. That `open`, `close` and the error are taken from either session state and in every phase, that a
failed `open` leaves the session as it was, and that a failed write leaves it open, is the model's choice
(notes/assumptions/12.md, 17.md). -/
def Obligations.SessionFollowsOpenAndClose : Prop :=
  (∀ (s : State) (c : LinkConfig) (es : List Input), s.inputs = .openLink c false :: es →
    step s = .next { s with inputs := es, session := .opened c, linkReply := some .ok }) ∧
  (∀ (s : State) (c : LinkConfig) (es : List Input), s.inputs = .openLink c true :: es →
    step s = .next { s with inputs := es, linkReply := some (.failed .openFailure) }) ∧
  (∀ (s : State) (es : List Input), s.inputs = .closeLink :: es →
    step s = .next { s with inputs := es, session := .closed }) ∧
  (∀ (s : State) (e : TransportError) (es : List Input), s.inputs = .linkFails e :: es →
    step s = .next { s with inputs := es, session := .closed, linkReply := some (.failed e) }) ∧
  ∀ (s t : State) (e : Input) (es : List Input), s.inputs = e :: es → e.isSession = false →
    step s = .next t → t.session = s.session

/-- R200, R199 step 1. A transaction on a closed session returns NotConnected and touches neither the link nor the
block, whatever the block is doing. Every failure of the link has a category of its own among the host's, a failed write
that of TransportFailure, and NotConnected is none of them. -/
def Obligations.ClosedSessionIsNotTouched : Prop :=
  (∀ (s : State) (c : Byte) (p resp : List Byte) (cut : Option Nat) (es : List Input),
    s.session = .closed → s.inputs = .transceive c p cut resp :: es →
    step s = .next { s with inputs := es, bridge := some (.failed .notConnected) }) ∧
  Function.Injective BridgeError.ofTransport ∧ BridgeError.ofTransport .writeFailure = .transportFailure ∧
  ∀ e, BridgeError.ofTransport e ≠ .notConnected

/-- R199. A transaction on an open session, with a payload of at most 65535 bytes and a link that takes the request,
discards the stale input, sends exactly the request's frame, and returns what `DecodeA` gives for the bytes that then
come: the payload, or the error of the same name. -/
def Obligations.TransactionSendsAndDecodes : Prop :=
  ∀ (s : State) (c : Byte) (p resp : List Byte) (es : List Input), s.phase = .idle → s.session ≠ .closed →
    p.length ≤ maxPayload → s.inputs = .transceive c p none resp :: es →
    ∃ t, step s = .next t ∧ t.linkTx = s.linkTx ++ frame c p ∧ t.linkRx = resp.drop (decodeA resp).2 ∧
      t.bridge = some (bridgeOfResult (decodeA resp).1) ∧ DecodeLeaves (decodeA resp).1 t ∧
      t.session = s.session ∧ t.inputs = es

/-- R131, R199 step 3. A payload above 65535 bytes ends the transaction with PayloadTooLarge and no byte sent. That both
buffers are then as they were, the host having written nothing of the payload into TXBUF, is no words of these rules: it
is the model's choice (notes/assumptions/20.md). -/
def Obligations.OversizeTransactionSendsNothing : Prop :=
  ∀ (s : State) (c : Byte) (p resp : List Byte) (cut : Option Nat) (es : List Input), s.phase = .idle →
    s.session ≠ .closed → p.length > maxPayload → s.inputs = .transceive c p cut resp :: es →
    ∃ t, step s = .next t ∧ t.linkTx = s.linkTx ∧ t.bridge = some (.failed .payloadTooLarge) ∧ t.phase = .idle ∧
      SameBuffers s t ∧ t.inputs = es

/-- R139, R262, R199 step 3. A link that fails the write after `n` bytes has sent the first `n` bytes of the frame; the
host resets the block and reports TransportFailure. Offered alone, a write that the link gives up is reported to the
host and leaves the block holding in its phase. That it has no move where no byte is offered is the model's reading, by
analogy with what R273 says of `tx_accept` (notes/assumptions/5.md); that a failed write inside a transaction is part of
the one step of it, and that the link's report is kept, is the model's choice (notes/assumptions/12.md). -/
def Obligations.FailedWriteSendsAPrefix : Prop :=
  (∀ (s : State) (c : Byte) (p resp : List Byte) (n : Nat) (es : List Input), s.phase = .idle →
    s.session ≠ .closed → p.length ≤ maxPayload → s.inputs = .transceive c p (some n) resp :: es →
    ∃ t, step s = .next t ∧ t.linkTx = s.linkTx ++ (frame c p).take n ∧
      t.bridge = some (.failed .transportFailure) ∧ t.linkReply = some (.failed .writeFailure) ∧ ResetValues t ∧
      t.inputs = es) ∧
  ∀ (s : State) (es : List Input), s.inputs = .writeFails :: es →
    (txValid s = true → step s = .next { s with inputs := es, linkReply := some (.failed .writeFailure) }) ∧
    (txValid s = false → step s = .refused .txNotOffered)

/-- R203 (the document's end-to-end scenario). A transaction whose response is cut short returns Truncated; whatever late
bytes then arrive, the next transaction on the same client succeeds with the payload of the response it is given, any
frame, whatever follows it. -/
def Obligations.TransactionRecoversAfterTruncation : Prop :=
  ∀ (s : State) (c c' d d' : Byte) (p p' q q' short late after : List Byte) (es : List Input), s.phase = .idle →
    s.session ≠ .closed → p.length ≤ maxPayload → p'.length ≤ maxPayload → q.length ≤ maxPayload →
    q'.length ≤ maxPayload → short <+: frame d q → short ≠ [] → short ≠ frame d q →
    s.inputs = .transceive c p none short :: (late.map .arrive ++ .transceive c' p' none (frame d' q' ++ after) :: es) →
    ∃ t u, step s = .next t ∧ t.bridge = some (.failed .truncated) ∧
      steps (late.length + 2) s = .next u ∧ u.bridge = some (.payload q') ∧ u.inputs = es ∧
      u.linkTx = s.linkTx ++ frame c p ++ frame c' p'

/-- R204, R205, R206. The seven status bytes. A facade accepts a transaction exactly when it returned a payload that
begins with the status OK and whose other bytes hold the facade's response, which they do exactly where they reach the
fixed prefix; every other transaction is one failure. The sizes of the fixed prefixes as the sums of R205's columns, get
status's of one byte for each field, whose sizes R205 does not give, and that no byte above 0x06 is a status, are the
model's reading (notes/assumptions/15.md), and so is that neither a marker that differs nor a scan shorter than its
count is a failure (notes/assumptions/15.md, 19.md). -/
def Obligations.FacadeJudgesTransaction : Prop :=
  (∀ (f : Facade) (r : BridgeResult) (x : Response),
    f.judge r = .accepted x ↔ ∃ q, r = .payload (0x00#8 :: q) ∧ f.parse q = some x) ∧
  (∀ (f : Facade) (q : List Byte), (f.parse q).isSome = true ↔ f.responseFixed ≤ q.length) ∧
  (Facade.responseFixed .ping = 4 ∧ Facade.responseFixed .getVersion = 3 ∧ Facade.responseFixed .getStatus = 8 ∧
    Facade.responseFixed .udpSend = 2 ∧ Facade.responseFixed .udpReceive = 8 ∧ Facade.responseFixed .tcpConnect = 0 ∧
    Facade.responseFixed .i2cScan = 1) ∧
  (statusOf 0x00#8 = some .ok ∧ statusOf 0x01#8 = some .error ∧ statusOf 0x02#8 = some .unknownCmd ∧
    statusOf 0x03#8 = some .invalidParam ∧ statusOf 0x04#8 = some .timeout ∧ statusOf 0x05#8 = some .busy ∧
    statusOf 0x06#8 = some .notInit) ∧
  ∀ b : Byte, statusOf b = none ↔ 0x06#8 < b

/-- R205, R204. The layouts: each request with fields has them in the order of the table, 16-bit integers big-endian and
the address in its four bytes, and the data last; the others are empty. A response of the table is its fields in the
order of the table, ping's the literal marker, which is a parameter, and I2C scan's as many addresses as it counts; it
is read back from its bytes, whatever follows them where its last field has an end. The model's choice: that the fields
of get status, whose sizes R205 does not give, are one byte each, that UDP receive's data is all that follows `length`,
whatever that declares, that bytes after the last field are not read, and that four bytes other than the marker are
accepted and handed on (notes/assumptions/15.md); that a scan with fewer bytes than it counts is accepted with addresses
that are a free value (notes/assumptions/19.md). -/
def Obligations.FacadeLayoutsAreTheTable : Prop :=
  (∀ (k : Byte) (ip : Quad) (port : Half) (data : List Byte),
    Request.payload (.udpSend k ip port data) =
      k :: ip.b0 :: ip.b1 :: ip.b2 :: ip.b3 :: port.extractLsb' 8 8 :: port.extractLsb' 0 8 :: data) ∧
  (∀ (k : Byte) (n : Half), Request.payload (.udpReceive k n) = [k, n.extractLsb' 8 8, n.extractLsb' 0 8]) ∧
  (∀ (k : Byte) (ip : Quad) (port ms : Half),
    Request.payload (.tcpConnect k ip port ms) =
      [k, ip.b0, ip.b1, ip.b2, ip.b3, port.extractLsb' 8 8, port.extractLsb' 0 8, ms.extractLsb' 8 8,
        ms.extractLsb' 0 8]) ∧
  (Request.payload .ping = [] ∧ Request.payload .getVersion = [] ∧ Request.payload .getStatus = [] ∧
    Request.payload .i2cScan = []) ∧
  (Response.bytes .ping =
    [Config.pingMarker.b0, Config.pingMarker.b1, Config.pingMarker.b2, Config.pingMarker.b3]) ∧
  (∀ m : Quad, Response.bytes (.pingOther m) = [m.b0, m.b1, m.b2, m.b3]) ∧
  (∀ a b c : Byte, Response.bytes (.getVersion a b c) = [a, b, c]) ∧
  (∀ a b c d e f g h : Byte, Response.bytes (.getStatus a b c d e f g h) = [a, b, c, d, e, f, g, h]) ∧
  (∀ n : Half, Response.bytes (.udpSend n) = [n.extractLsb' 8 8, n.extractLsb' 0 8]) ∧
  (∀ (ip : Quad) (port n : Half) (data : List Byte),
    Response.bytes (.udpReceive ip port n data) =
      ip.b0 :: ip.b1 :: ip.b2 :: ip.b3 :: port.extractLsb' 8 8 :: port.extractLsb' 0 8 :: n.extractLsb' 8 8 ::
        n.extractLsb' 0 8 :: data) ∧
  (Response.bytes .tcpConnect = [] ∧ ∀ (n : Byte) (as : List Byte), Response.bytes (.i2cScan n as) = n :: as) ∧
  (∀ x : Response, x.followsTable = true → x.facade.parse x.bytes = some x ∧
    (x.facade ≠ .udpReceive → ∀ later, x.facade.parse (x.bytes ++ later) = some x)) ∧
  (∀ x : Response, x.followsTable = true ↔
    (∀ m, x ≠ .pingOther m) ∧ ∀ n as, x = .i2cScan n as → as.length = n.toNat) ∧
  (∀ (m : Quad) (later : List Byte),
    Facade.parse .ping (m.b0 :: m.b1 :: m.b2 :: m.b3 :: later) =
      some (if m = Config.pingMarker then .ping else .pingOther m)) ∧
  ∀ (n : Byte) (rest : List Byte), rest.length < n.toNat →
    ∃ as, Facade.parse .i2cScan (n :: rest) = some (.i2cScan n as)

/-- R205, R206, R199. A facade's operation on an open link, whose request fits a frame and is taken by the link, sends
the frame of its command and its payload and judges what the transaction returns; on a closed session it fails, with
nothing sent. Whatever its transaction does, a write that fails and an oversize payload among it, the verdict is on what
it returned. Ping's command is 0x00 (R90), the others are a parameter (notes/assumptions/15.md). One step for the whole
operation is the model's choice (notes/assumptions/12.md). -/
def Obligations.FacadeCallTransactsAndJudges : Prop :=
  (∀ (s : State) (q : Request) (resp : List Byte) (es : List Input), s.phase = .idle → s.session ≠ .closed →
    q.payload.length ≤ maxPayload → s.inputs = .call q none resp :: es →
    ∃ t, step s = .next t ∧ t.linkTx = s.linkTx ++ frame q.facade.command q.payload ∧
      t.bridge = some (bridgeOfResult (decodeA resp).1) ∧
      t.facade = some (q.facade.judge (bridgeOfResult (decodeA resp).1)) ∧ t.phase = .idle ∧ t.inputs = es) ∧
  (∀ (s : State) (q : Request) (cut : Option Nat) (resp : List Byte) (es : List Input), s.session = .closed →
    s.inputs = .call q cut resp :: es →
    step s = .next { s with
      inputs := es, bridge := some (.failed .notConnected), facade := some .operationFailed }) ∧
  (∀ (s u : State) (q : Request) (cut : Option Nat) (resp : List Byte) (es : List Input),
    s.inputs = .call q cut resp :: es →
    step { s with inputs := .transceive q.facade.command q.payload cut resp :: es } = .next u →
    step s = .next { u with facade := u.bridge.map q.facade.judge }) ∧
  Facade.command .ping = 0x00#8

/-- R207 (third column). A `start` of DECODE in an idle block on a closed link has no move. That an event the host is
"assumed never to" offer is a refusal is the model's reading (notes/assumptions/5.md). -/
def Obligations.StartOfDecodeOnClosedLinkHasNoMove : Prop :=
  ∀ (s : State) (a : Byte) (plen : Nat) (es : List Input), s.phase = .idle → s.session = .closed →
    s.inputs = .start 3#2 a plen :: es → step s = .refused .decodeOnClosedLink

/-- R201, R207 (third column). A transaction or a facade's operation on an open link has no move while the block is busy.
That an event the host is "assumed never to" offer is a refusal is the model's reading (notes/assumptions/5.md). -/
def Obligations.TransactionHasNoMoveWhileBusy : Prop :=
  ∀ (s : State) (e : Input) (es : List Input), s.inputs = e :: es → e.isTransceive = true → s.phase ≠ .idle →
    s.session ≠ .closed → step s = .refused .transceiveWhileBusy
end

