-- ==== Sys2Proof/Laws/State.lean ====
section
/-! SUPPORT. Each field after each named update of the state. -/

namespace Sys2Proof.Machine

@[simp] theorem finishWith_phase (e : ErrCode) (s : State) : (finishWith e s).phase = .idle := rfl
@[simp] theorem finishWith_acc (e : ErrCode) (s : State) : (finishWith e s).acc = s.acc := rfl
@[simp] theorem finishWith_cmd (e : ErrCode) (s : State) : (finishWith e s).cmd = s.cmd := rfl
@[simp] theorem finishWith_len (e : ErrCode) (s : State) : (finishWith e s).len = s.len := rfl
@[simp] theorem finishWith_idx (e : ErrCode) (s : State) : (finishWith e s).idx = s.idx := rfl
@[simp] theorem finishWith_rxck (e : ErrCode) (s : State) : (finishWith e s).rxck = s.rxck := rfl
@[simp] theorem finishWith_done (e : ErrCode) (s : State) : (finishWith e s).done = true := rfl
@[simp] theorem finishWith_err (e : ErrCode) (s : State) : (finishWith e s).err = e := rfl
@[simp] theorem finishWith_txbuf (e : ErrCode) (s : State) : (finishWith e s).txbuf = s.txbuf := rfl
@[simp] theorem finishWith_rxbuf (e : ErrCode) (s : State) : (finishWith e s).rxbuf = s.rxbuf := rfl
@[simp] theorem finishWith_known (e : ErrCode) (s : State) : (finishWith e s).known = s.known := rfl
@[simp] theorem finishWith_draws (e : ErrCode) (s : State) : (finishWith e s).draws = s.draws := rfl
@[simp] theorem finishWith_encodes (e : ErrCode) (s : State) : (finishWith e s).encodes = s.encodes := rfl
@[simp] theorem finishWith_linkRx (e : ErrCode) (s : State) : (finishWith e s).linkRx = s.linkRx := rfl
@[simp] theorem finishWith_linkTx (e : ErrCode) (s : State) : (finishWith e s).linkTx = s.linkTx := rfl
@[simp] theorem finishWith_session (e : ErrCode) (s : State) : (finishWith e s).session = s.session := rfl
@[simp] theorem finishWith_inputs (e : ErrCode) (s : State) : (finishWith e s).inputs = s.inputs := rfl
@[simp] theorem finishWith_readout (e : ErrCode) (s : State) : (finishWith e s).readout = s.readout := rfl
@[simp] theorem finishWith_bridge (e : ErrCode) (s : State) : (finishWith e s).bridge = s.bridge := rfl
@[simp] theorem finishWith_linkReply (e : ErrCode) (s : State) : (finishWith e s).linkReply = s.linkReply := rfl
@[simp] theorem finishWith_facade (e : ErrCode) (s : State) : (finishWith e s).facade = s.facade := rfl

@[simp] theorem failDecode_phase (e : ErrCode) (s : State) : (failDecode e s).phase = .idle := rfl
@[simp] theorem failDecode_acc (e : ErrCode) (s : State) : (failDecode e s).acc = s.acc := rfl
@[simp] theorem failDecode_cmd (e : ErrCode) (s : State) : (failDecode e s).cmd = s.cmd := rfl
@[simp] theorem failDecode_len (e : ErrCode) (s : State) : (failDecode e s).len = s.len := rfl
@[simp] theorem failDecode_idx (e : ErrCode) (s : State) : (failDecode e s).idx = s.idx := rfl
@[simp] theorem failDecode_rxck (e : ErrCode) (s : State) : (failDecode e s).rxck = s.rxck := rfl
@[simp] theorem failDecode_done (e : ErrCode) (s : State) : (failDecode e s).done = true := rfl
@[simp] theorem failDecode_err (e : ErrCode) (s : State) : (failDecode e s).err = e := rfl
@[simp] theorem failDecode_txbuf (e : ErrCode) (s : State) : (failDecode e s).txbuf = s.txbuf := rfl
@[simp] theorem failDecode_rxbuf (e : ErrCode) (s : State) : (failDecode e s).rxbuf = [] := rfl
@[simp] theorem failDecode_known (e : ErrCode) (s : State) : (failDecode e s).known = Known.nothing := rfl
@[simp] theorem failDecode_draws (e : ErrCode) (s : State) : (failDecode e s).draws = s.draws := rfl
@[simp] theorem failDecode_encodes (e : ErrCode) (s : State) : (failDecode e s).encodes = s.encodes := rfl
@[simp] theorem failDecode_linkRx (e : ErrCode) (s : State) : (failDecode e s).linkRx = s.linkRx := rfl
@[simp] theorem failDecode_linkTx (e : ErrCode) (s : State) : (failDecode e s).linkTx = s.linkTx := rfl
@[simp] theorem failDecode_session (e : ErrCode) (s : State) : (failDecode e s).session = s.session := rfl
@[simp] theorem failDecode_inputs (e : ErrCode) (s : State) : (failDecode e s).inputs = s.inputs := rfl
@[simp] theorem failDecode_readout (e : ErrCode) (s : State) : (failDecode e s).readout = s.readout := rfl
@[simp] theorem failDecode_bridge (e : ErrCode) (s : State) : (failDecode e s).bridge = s.bridge := rfl
@[simp] theorem failDecode_linkReply (e : ErrCode) (s : State) : (failDecode e s).linkReply = s.linkReply := rfl
@[simp] theorem failDecode_facade (e : ErrCode) (s : State) : (failDecode e s).facade = s.facade := rfl

@[simp] theorem passDecode_phase (s : State) : (passDecode s).phase = .idle := rfl
@[simp] theorem passDecode_acc (s : State) : (passDecode s).acc = s.acc := rfl
@[simp] theorem passDecode_cmd (s : State) : (passDecode s).cmd = s.cmd := rfl
@[simp] theorem passDecode_len (s : State) : (passDecode s).len = s.len := rfl
@[simp] theorem passDecode_idx (s : State) : (passDecode s).idx = s.idx := rfl
@[simp] theorem passDecode_rxck (s : State) : (passDecode s).rxck = s.rxck := rfl
@[simp] theorem passDecode_done (s : State) : (passDecode s).done = true := rfl
@[simp] theorem passDecode_err (s : State) : (passDecode s).err = .none := rfl
@[simp] theorem passDecode_txbuf (s : State) : (passDecode s).txbuf = s.txbuf := rfl
@[simp] theorem passDecode_rxbuf (s : State) : (passDecode s).rxbuf = memBelow s.rxbuf s.len.toNat := rfl
@[simp] theorem passDecode_known (s : State) : (passDecode s).known = Known.everything := rfl
@[simp] theorem passDecode_draws (s : State) : (passDecode s).draws = s.draws := rfl
@[simp] theorem passDecode_encodes (s : State) : (passDecode s).encodes = s.encodes := rfl
@[simp] theorem passDecode_linkRx (s : State) : (passDecode s).linkRx = s.linkRx := rfl
@[simp] theorem passDecode_linkTx (s : State) : (passDecode s).linkTx = s.linkTx := rfl
@[simp] theorem passDecode_session (s : State) : (passDecode s).session = s.session := rfl
@[simp] theorem passDecode_inputs (s : State) : (passDecode s).inputs = s.inputs := rfl
@[simp] theorem passDecode_readout (s : State) : (passDecode s).readout = s.readout := rfl
@[simp] theorem passDecode_bridge (s : State) : (passDecode s).bridge = s.bridge := rfl
@[simp] theorem passDecode_linkReply (s : State) : (passDecode s).linkReply = s.linkReply := rfl
@[simp] theorem passDecode_facade (s : State) : (passDecode s).facade = s.facade := rfl

@[simp] theorem resetBlock_phase (s : State) : (resetBlock s).phase = .idle := rfl
@[simp] theorem resetBlock_acc (s : State) : (resetBlock s).acc = 0#8 := rfl
@[simp] theorem resetBlock_cmd (s : State) : (resetBlock s).cmd = 0#8 := rfl
@[simp] theorem resetBlock_len (s : State) : (resetBlock s).len = 0#16 := rfl
@[simp] theorem resetBlock_idx (s : State) : (resetBlock s).idx = 0#16 := rfl
@[simp] theorem resetBlock_rxck (s : State) : (resetBlock s).rxck = 0#8 := rfl
@[simp] theorem resetBlock_done (s : State) : (resetBlock s).done = false := rfl
@[simp] theorem resetBlock_err (s : State) : (resetBlock s).err = .none := rfl
@[simp] theorem resetBlock_txbuf (s : State) : (resetBlock s).txbuf = [] := rfl
@[simp] theorem resetBlock_rxbuf (s : State) : (resetBlock s).rxbuf = [] := rfl
@[simp] theorem resetBlock_known (s : State) : (resetBlock s).known = Known.nothing := rfl
@[simp] theorem resetBlock_draws (s : State) : (resetBlock s).draws = s.draws := rfl
@[simp] theorem resetBlock_encodes (s : State) : (resetBlock s).encodes = s.encodes := rfl
@[simp] theorem resetBlock_linkRx (s : State) : (resetBlock s).linkRx = s.linkRx := rfl
@[simp] theorem resetBlock_linkTx (s : State) : (resetBlock s).linkTx = s.linkTx := rfl
@[simp] theorem resetBlock_session (s : State) : (resetBlock s).session = s.session := rfl
@[simp] theorem resetBlock_inputs (s : State) : (resetBlock s).inputs = s.inputs := rfl
@[simp] theorem resetBlock_readout (s : State) : (resetBlock s).readout = s.readout := rfl
@[simp] theorem resetBlock_bridge (s : State) : (resetBlock s).bridge = s.bridge := rfl
@[simp] theorem resetBlock_linkReply (s : State) : (resetBlock s).linkReply = s.linkReply := rfl
@[simp] theorem resetBlock_facade (s : State) : (resetBlock s).facade = s.facade := rfl

@[simp] theorem sendByte_phase (b : Byte) (s : State) : (sendByte b s).phase = s.phase := rfl
@[simp] theorem sendByte_acc (b : Byte) (s : State) : (sendByte b s).acc = s.acc := rfl
@[simp] theorem sendByte_cmd (b : Byte) (s : State) : (sendByte b s).cmd = s.cmd := rfl
@[simp] theorem sendByte_len (b : Byte) (s : State) : (sendByte b s).len = s.len := rfl
@[simp] theorem sendByte_idx (b : Byte) (s : State) : (sendByte b s).idx = s.idx := rfl
@[simp] theorem sendByte_rxck (b : Byte) (s : State) : (sendByte b s).rxck = s.rxck := rfl
@[simp] theorem sendByte_done (b : Byte) (s : State) : (sendByte b s).done = s.done := rfl
@[simp] theorem sendByte_err (b : Byte) (s : State) : (sendByte b s).err = s.err := rfl
@[simp] theorem sendByte_txbuf (b : Byte) (s : State) : (sendByte b s).txbuf = s.txbuf := rfl
@[simp] theorem sendByte_rxbuf (b : Byte) (s : State) : (sendByte b s).rxbuf = s.rxbuf := rfl
@[simp] theorem sendByte_known (b : Byte) (s : State) : (sendByte b s).known = s.known := rfl
@[simp] theorem sendByte_draws (b : Byte) (s : State) : (sendByte b s).draws = s.draws := rfl
@[simp] theorem sendByte_encodes (b : Byte) (s : State) : (sendByte b s).encodes = s.encodes := rfl
@[simp] theorem sendByte_linkRx (b : Byte) (s : State) : (sendByte b s).linkRx = s.linkRx := rfl
@[simp] theorem sendByte_linkTx (b : Byte) (s : State) : (sendByte b s).linkTx = s.linkTx ++ [b] := rfl
@[simp] theorem sendByte_session (b : Byte) (s : State) : (sendByte b s).session = s.session := rfl
@[simp] theorem sendByte_inputs (b : Byte) (s : State) : (sendByte b s).inputs = s.inputs := rfl
@[simp] theorem sendByte_readout (b : Byte) (s : State) : (sendByte b s).readout = s.readout := rfl
@[simp] theorem sendByte_bridge (b : Byte) (s : State) : (sendByte b s).bridge = s.bridge := rfl
@[simp] theorem sendByte_linkReply (b : Byte) (s : State) : (sendByte b s).linkReply = s.linkReply := rfl
@[simp] theorem sendByte_facade (b : Byte) (s : State) : (sendByte b s).facade = s.facade := rfl

@[simp] theorem nextDraw_phase (s : State) : (nextDraw s).phase = s.phase := rfl
@[simp] theorem nextDraw_acc (s : State) : (nextDraw s).acc = s.acc := rfl
@[simp] theorem nextDraw_cmd (s : State) : (nextDraw s).cmd = s.cmd := rfl
@[simp] theorem nextDraw_len (s : State) : (nextDraw s).len = s.len := rfl
@[simp] theorem nextDraw_idx (s : State) : (nextDraw s).idx = s.idx := rfl
@[simp] theorem nextDraw_rxck (s : State) : (nextDraw s).rxck = s.rxck := rfl
@[simp] theorem nextDraw_done (s : State) : (nextDraw s).done = s.done := rfl
@[simp] theorem nextDraw_err (s : State) : (nextDraw s).err = s.err := rfl
@[simp] theorem nextDraw_txbuf (s : State) : (nextDraw s).txbuf = s.txbuf := rfl
@[simp] theorem nextDraw_rxbuf (s : State) : (nextDraw s).rxbuf = s.rxbuf := rfl
@[simp] theorem nextDraw_known (s : State) : (nextDraw s).known = s.known := rfl
@[simp] theorem nextDraw_draws (s : State) : (nextDraw s).draws = s.draws + 1 := rfl
@[simp] theorem nextDraw_encodes (s : State) : (nextDraw s).encodes = s.encodes := rfl
@[simp] theorem nextDraw_linkRx (s : State) : (nextDraw s).linkRx = s.linkRx := rfl
@[simp] theorem nextDraw_linkTx (s : State) : (nextDraw s).linkTx = s.linkTx := rfl
@[simp] theorem nextDraw_session (s : State) : (nextDraw s).session = s.session := rfl
@[simp] theorem nextDraw_inputs (s : State) : (nextDraw s).inputs = s.inputs := rfl
@[simp] theorem nextDraw_readout (s : State) : (nextDraw s).readout = s.readout := rfl
@[simp] theorem nextDraw_bridge (s : State) : (nextDraw s).bridge = s.bridge := rfl
@[simp] theorem nextDraw_linkReply (s : State) : (nextDraw s).linkReply = s.linkReply := rfl
@[simp] theorem nextDraw_facade (s : State) : (nextDraw s).facade = s.facade := rfl

@[simp] theorem beginEncode_phase (a : Byte) (n : Nat) (s : State) : (beginEncode a n s).phase = .eSof := rfl
@[simp] theorem beginEncode_acc (a : Byte) (n : Nat) (s : State) : (beginEncode a n s).acc = ckInit := rfl
@[simp] theorem beginEncode_cmd (a : Byte) (n : Nat) (s : State) : (beginEncode a n s).cmd = a := rfl
@[simp] theorem beginEncode_len (a : Byte) (n : Nat) (s : State) : (beginEncode a n s).len = BitVec.ofNat 16 n := rfl
@[simp] theorem beginEncode_idx (a : Byte) (n : Nat) (s : State) : (beginEncode a n s).idx = 0#16 := rfl
@[simp] theorem beginEncode_rxck (a : Byte) (n : Nat) (s : State) : (beginEncode a n s).rxck = s.rxck := rfl
@[simp] theorem beginEncode_done (a : Byte) (n : Nat) (s : State) : (beginEncode a n s).done = false := rfl
@[simp] theorem beginEncode_err (a : Byte) (n : Nat) (s : State) : (beginEncode a n s).err = s.err := rfl
@[simp] theorem beginEncode_txbuf (a : Byte) (n : Nat) (s : State) : (beginEncode a n s).txbuf = s.txbuf := rfl
@[simp] theorem beginEncode_rxbuf (a : Byte) (n : Nat) (s : State) : (beginEncode a n s).rxbuf = s.rxbuf := rfl
@[simp] theorem beginEncode_known (a : Byte) (n : Nat) (s : State) : (beginEncode a n s).known = { s.known with acc := true, cmd := true, len := true, idx := true } := rfl
@[simp] theorem beginEncode_draws (a : Byte) (n : Nat) (s : State) : (beginEncode a n s).draws = s.draws := rfl
@[simp] theorem beginEncode_encodes (a : Byte) (n : Nat) (s : State) : (beginEncode a n s).encodes = s.encodes + 1 := rfl
@[simp] theorem beginEncode_linkRx (a : Byte) (n : Nat) (s : State) : (beginEncode a n s).linkRx = s.linkRx := rfl
@[simp] theorem beginEncode_linkTx (a : Byte) (n : Nat) (s : State) : (beginEncode a n s).linkTx = s.linkTx := rfl
@[simp] theorem beginEncode_session (a : Byte) (n : Nat) (s : State) : (beginEncode a n s).session = s.session := rfl
@[simp] theorem beginEncode_inputs (a : Byte) (n : Nat) (s : State) : (beginEncode a n s).inputs = s.inputs := rfl
@[simp] theorem beginEncode_readout (a : Byte) (n : Nat) (s : State) : (beginEncode a n s).readout = s.readout := rfl
@[simp] theorem beginEncode_bridge (a : Byte) (n : Nat) (s : State) : (beginEncode a n s).bridge = s.bridge := rfl
@[simp] theorem beginEncode_linkReply (a : Byte) (n : Nat) (s : State) : (beginEncode a n s).linkReply = s.linkReply := rfl
@[simp] theorem beginEncode_facade (a : Byte) (n : Nat) (s : State) : (beginEncode a n s).facade = s.facade := rfl

@[simp] theorem acceptDecode_phase (s : State) : (acceptDecode s).phase = .dSof := rfl
@[simp] theorem acceptDecode_acc (s : State) : (acceptDecode s).acc = s.acc := rfl
@[simp] theorem acceptDecode_cmd (s : State) : (acceptDecode s).cmd = s.cmd := rfl
@[simp] theorem acceptDecode_len (s : State) : (acceptDecode s).len = s.len := rfl
@[simp] theorem acceptDecode_idx (s : State) : (acceptDecode s).idx = s.idx := rfl
@[simp] theorem acceptDecode_rxck (s : State) : (acceptDecode s).rxck = s.rxck := rfl
@[simp] theorem acceptDecode_done (s : State) : (acceptDecode s).done = false := rfl
@[simp] theorem acceptDecode_err (s : State) : (acceptDecode s).err = s.err := rfl
@[simp] theorem acceptDecode_txbuf (s : State) : (acceptDecode s).txbuf = s.txbuf := rfl
@[simp] theorem acceptDecode_rxbuf (s : State) : (acceptDecode s).rxbuf = s.rxbuf := rfl
@[simp] theorem acceptDecode_known (s : State) : (acceptDecode s).known = s.known := rfl
@[simp] theorem acceptDecode_draws (s : State) : (acceptDecode s).draws = s.draws := rfl
@[simp] theorem acceptDecode_encodes (s : State) : (acceptDecode s).encodes = s.encodes := rfl
@[simp] theorem acceptDecode_linkRx (s : State) : (acceptDecode s).linkRx = s.linkRx := rfl
@[simp] theorem acceptDecode_linkTx (s : State) : (acceptDecode s).linkTx = s.linkTx := rfl
@[simp] theorem acceptDecode_session (s : State) : (acceptDecode s).session = s.session := rfl
@[simp] theorem acceptDecode_inputs (s : State) : (acceptDecode s).inputs = s.inputs := rfl
@[simp] theorem acceptDecode_readout (s : State) : (acceptDecode s).readout = s.readout := rfl
@[simp] theorem acceptDecode_bridge (s : State) : (acceptDecode s).bridge = s.bridge := rfl
@[simp] theorem acceptDecode_linkReply (s : State) : (acceptDecode s).linkReply = s.linkReply := rfl
@[simp] theorem acceptDecode_facade (s : State) : (acceptDecode s).facade = s.facade := rfl

@[simp] theorem arrive_phase (b : Byte) (s : State) : (arrive b s).phase = s.phase := rfl
@[simp] theorem arrive_acc (b : Byte) (s : State) : (arrive b s).acc = s.acc := rfl
@[simp] theorem arrive_cmd (b : Byte) (s : State) : (arrive b s).cmd = s.cmd := rfl
@[simp] theorem arrive_len (b : Byte) (s : State) : (arrive b s).len = s.len := rfl
@[simp] theorem arrive_idx (b : Byte) (s : State) : (arrive b s).idx = s.idx := rfl
@[simp] theorem arrive_rxck (b : Byte) (s : State) : (arrive b s).rxck = s.rxck := rfl
@[simp] theorem arrive_done (b : Byte) (s : State) : (arrive b s).done = s.done := rfl
@[simp] theorem arrive_err (b : Byte) (s : State) : (arrive b s).err = s.err := rfl
@[simp] theorem arrive_txbuf (b : Byte) (s : State) : (arrive b s).txbuf = s.txbuf := rfl
@[simp] theorem arrive_rxbuf (b : Byte) (s : State) : (arrive b s).rxbuf = s.rxbuf := rfl
@[simp] theorem arrive_known (b : Byte) (s : State) : (arrive b s).known = s.known := rfl
@[simp] theorem arrive_draws (b : Byte) (s : State) : (arrive b s).draws = s.draws := rfl
@[simp] theorem arrive_encodes (b : Byte) (s : State) : (arrive b s).encodes = s.encodes := rfl
@[simp] theorem arrive_linkRx (b : Byte) (s : State) : (arrive b s).linkRx = s.linkRx ++ [b] := rfl
@[simp] theorem arrive_linkTx (b : Byte) (s : State) : (arrive b s).linkTx = s.linkTx := rfl
@[simp] theorem arrive_session (b : Byte) (s : State) : (arrive b s).session = s.session := rfl
@[simp] theorem arrive_inputs (b : Byte) (s : State) : (arrive b s).inputs = s.inputs := rfl
@[simp] theorem arrive_readout (b : Byte) (s : State) : (arrive b s).readout = s.readout := rfl
@[simp] theorem arrive_bridge (b : Byte) (s : State) : (arrive b s).bridge = s.bridge := rfl
@[simp] theorem arrive_linkReply (b : Byte) (s : State) : (arrive b s).linkReply = s.linkReply := rfl
@[simp] theorem arrive_facade (b : Byte) (s : State) : (arrive b s).facade = s.facade := rfl

@[simp] theorem discard_phase (s : State) : (discard s).phase = s.phase := rfl
@[simp] theorem discard_acc (s : State) : (discard s).acc = s.acc := rfl
@[simp] theorem discard_cmd (s : State) : (discard s).cmd = s.cmd := rfl
@[simp] theorem discard_len (s : State) : (discard s).len = s.len := rfl
@[simp] theorem discard_idx (s : State) : (discard s).idx = s.idx := rfl
@[simp] theorem discard_rxck (s : State) : (discard s).rxck = s.rxck := rfl
@[simp] theorem discard_done (s : State) : (discard s).done = s.done := rfl
@[simp] theorem discard_err (s : State) : (discard s).err = s.err := rfl
@[simp] theorem discard_txbuf (s : State) : (discard s).txbuf = s.txbuf := rfl
@[simp] theorem discard_rxbuf (s : State) : (discard s).rxbuf = s.rxbuf := rfl
@[simp] theorem discard_known (s : State) : (discard s).known = s.known := rfl
@[simp] theorem discard_draws (s : State) : (discard s).draws = s.draws := rfl
@[simp] theorem discard_encodes (s : State) : (discard s).encodes = s.encodes := rfl
@[simp] theorem discard_linkRx (s : State) : (discard s).linkRx = [] := rfl
@[simp] theorem discard_linkTx (s : State) : (discard s).linkTx = s.linkTx := rfl
@[simp] theorem discard_session (s : State) : (discard s).session = s.session := rfl
@[simp] theorem discard_inputs (s : State) : (discard s).inputs = s.inputs := rfl
@[simp] theorem discard_readout (s : State) : (discard s).readout = s.readout := rfl
@[simp] theorem discard_bridge (s : State) : (discard s).bridge = s.bridge := rfl
@[simp] theorem discard_linkReply (s : State) : (discard s).linkReply = s.linkReply := rfl
@[simp] theorem discard_facade (s : State) : (discard s).facade = s.facade := rfl

@[simp] theorem reply_phase (r : LinkReply) (s : State) : (reply r s).phase = s.phase := rfl
@[simp] theorem reply_acc (r : LinkReply) (s : State) : (reply r s).acc = s.acc := rfl
@[simp] theorem reply_cmd (r : LinkReply) (s : State) : (reply r s).cmd = s.cmd := rfl
@[simp] theorem reply_len (r : LinkReply) (s : State) : (reply r s).len = s.len := rfl
@[simp] theorem reply_idx (r : LinkReply) (s : State) : (reply r s).idx = s.idx := rfl
@[simp] theorem reply_rxck (r : LinkReply) (s : State) : (reply r s).rxck = s.rxck := rfl
@[simp] theorem reply_done (r : LinkReply) (s : State) : (reply r s).done = s.done := rfl
@[simp] theorem reply_err (r : LinkReply) (s : State) : (reply r s).err = s.err := rfl
@[simp] theorem reply_txbuf (r : LinkReply) (s : State) : (reply r s).txbuf = s.txbuf := rfl
@[simp] theorem reply_rxbuf (r : LinkReply) (s : State) : (reply r s).rxbuf = s.rxbuf := rfl
@[simp] theorem reply_known (r : LinkReply) (s : State) : (reply r s).known = s.known := rfl
@[simp] theorem reply_draws (r : LinkReply) (s : State) : (reply r s).draws = s.draws := rfl
@[simp] theorem reply_encodes (r : LinkReply) (s : State) : (reply r s).encodes = s.encodes := rfl
@[simp] theorem reply_linkRx (r : LinkReply) (s : State) : (reply r s).linkRx = s.linkRx := rfl
@[simp] theorem reply_linkTx (r : LinkReply) (s : State) : (reply r s).linkTx = s.linkTx := rfl
@[simp] theorem reply_session (r : LinkReply) (s : State) : (reply r s).session = s.session := rfl
@[simp] theorem reply_inputs (r : LinkReply) (s : State) : (reply r s).inputs = s.inputs := rfl
@[simp] theorem reply_readout (r : LinkReply) (s : State) : (reply r s).readout = s.readout := rfl
@[simp] theorem reply_bridge (r : LinkReply) (s : State) : (reply r s).bridge = s.bridge := rfl
@[simp] theorem reply_linkReply (r : LinkReply) (s : State) : (reply r s).linkReply = some r := rfl
@[simp] theorem reply_facade (r : LinkReply) (s : State) : (reply r s).facade = s.facade := rfl

@[simp] theorem verdict_phase (f : Facade) (s : State) : (verdict f s).phase = s.phase := rfl
@[simp] theorem verdict_acc (f : Facade) (s : State) : (verdict f s).acc = s.acc := rfl
@[simp] theorem verdict_cmd (f : Facade) (s : State) : (verdict f s).cmd = s.cmd := rfl
@[simp] theorem verdict_len (f : Facade) (s : State) : (verdict f s).len = s.len := rfl
@[simp] theorem verdict_idx (f : Facade) (s : State) : (verdict f s).idx = s.idx := rfl
@[simp] theorem verdict_rxck (f : Facade) (s : State) : (verdict f s).rxck = s.rxck := rfl
@[simp] theorem verdict_done (f : Facade) (s : State) : (verdict f s).done = s.done := rfl
@[simp] theorem verdict_err (f : Facade) (s : State) : (verdict f s).err = s.err := rfl
@[simp] theorem verdict_txbuf (f : Facade) (s : State) : (verdict f s).txbuf = s.txbuf := rfl
@[simp] theorem verdict_rxbuf (f : Facade) (s : State) : (verdict f s).rxbuf = s.rxbuf := rfl
@[simp] theorem verdict_known (f : Facade) (s : State) : (verdict f s).known = s.known := rfl
@[simp] theorem verdict_draws (f : Facade) (s : State) : (verdict f s).draws = s.draws := rfl
@[simp] theorem verdict_encodes (f : Facade) (s : State) : (verdict f s).encodes = s.encodes := rfl
@[simp] theorem verdict_linkRx (f : Facade) (s : State) : (verdict f s).linkRx = s.linkRx := rfl
@[simp] theorem verdict_linkTx (f : Facade) (s : State) : (verdict f s).linkTx = s.linkTx := rfl
@[simp] theorem verdict_session (f : Facade) (s : State) : (verdict f s).session = s.session := rfl
@[simp] theorem verdict_inputs (f : Facade) (s : State) : (verdict f s).inputs = s.inputs := rfl
@[simp] theorem verdict_readout (f : Facade) (s : State) : (verdict f s).readout = s.readout := rfl
@[simp] theorem verdict_bridge (f : Facade) (s : State) : (verdict f s).bridge = s.bridge := rfl
@[simp] theorem verdict_linkReply (f : Facade) (s : State) : (verdict f s).linkReply = s.linkReply := rfl
@[simp] theorem verdict_facade (f : Facade) (s : State) : (verdict f s).facade = s.bridge.map f.judge := rfl

@[simp] theorem setSession_phase (x : Session) (s : State) : (setSession x s).phase = s.phase := rfl
@[simp] theorem setSession_acc (x : Session) (s : State) : (setSession x s).acc = s.acc := rfl
@[simp] theorem setSession_cmd (x : Session) (s : State) : (setSession x s).cmd = s.cmd := rfl
@[simp] theorem setSession_len (x : Session) (s : State) : (setSession x s).len = s.len := rfl
@[simp] theorem setSession_idx (x : Session) (s : State) : (setSession x s).idx = s.idx := rfl
@[simp] theorem setSession_rxck (x : Session) (s : State) : (setSession x s).rxck = s.rxck := rfl
@[simp] theorem setSession_done (x : Session) (s : State) : (setSession x s).done = s.done := rfl
@[simp] theorem setSession_err (x : Session) (s : State) : (setSession x s).err = s.err := rfl
@[simp] theorem setSession_txbuf (x : Session) (s : State) : (setSession x s).txbuf = s.txbuf := rfl
@[simp] theorem setSession_rxbuf (x : Session) (s : State) : (setSession x s).rxbuf = s.rxbuf := rfl
@[simp] theorem setSession_known (x : Session) (s : State) : (setSession x s).known = s.known := rfl
@[simp] theorem setSession_draws (x : Session) (s : State) : (setSession x s).draws = s.draws := rfl
@[simp] theorem setSession_encodes (x : Session) (s : State) : (setSession x s).encodes = s.encodes := rfl
@[simp] theorem setSession_linkRx (x : Session) (s : State) : (setSession x s).linkRx = s.linkRx := rfl
@[simp] theorem setSession_linkTx (x : Session) (s : State) : (setSession x s).linkTx = s.linkTx := rfl
@[simp] theorem setSession_session (x : Session) (s : State) : (setSession x s).session = x := rfl
@[simp] theorem setSession_inputs (x : Session) (s : State) : (setSession x s).inputs = s.inputs := rfl
@[simp] theorem setSession_readout (x : Session) (s : State) : (setSession x s).readout = s.readout := rfl
@[simp] theorem setSession_bridge (x : Session) (s : State) : (setSession x s).bridge = s.bridge := rfl
@[simp] theorem setSession_linkReply (x : Session) (s : State) : (setSession x s).linkReply = s.linkReply := rfl
@[simp] theorem setSession_facade (x : Session) (s : State) : (setSession x s).facade = s.facade := rfl

end Sys2Proof.Machine
end

