-- ==== Sys2Proof/Laws/Wire.lean ====
section
/-! SUPPORT. Laws of the wire format: the two length bytes are the length, and where each field of a frame stands. -/

namespace Sys2Proof.Machine

theorem joinLen_getLsbD (a b : Byte) (i : Nat) :
    (joinLen a b).getLsbD i = if i < 8 then b.getLsbD i else a.getLsbD (i - 8) :=
  BitVec.getLsbD_append (x := a) (y := b)

@[simp] theorem hi8_joinLen (a b : Byte) : hi8 (joinLen a b) = a := by
  ext i hi
  simp [hi8, joinLen_getLsbD, ← BitVec.getLsbD_eq_getElem, hi]

@[simp] theorem lo8_joinLen (a b : Byte) : lo8 (joinLen a b) = b := by
  ext i hi
  simp [lo8, joinLen_getLsbD, hi, ← BitVec.getLsbD_eq_getElem]

@[simp] theorem joinLen_hi8_lo8 (n : Half) : joinLen (hi8 n) (lo8 n) = n := by
  apply BitVec.eq_of_getLsbD_eq
  intro i hi
  rw [joinLen_getLsbD]
  by_cases h : i < 8
  · simp [h, lo8]
  · simp only [h, if_false, hi8, BitVec.getLsbD_extractLsb', show 8 + (i - 8) = i by omega]
    simp; omega

theorem lenOf_toNat {p : List Byte} (h : p.length ≤ maxPayload) : (lenOf p).toNat = p.length := by
  simp only [lenOf, maxPayload, BitVec.toNat_ofNat] at *; omega

theorem wire_eq (c : Byte) (p : List Byte) (ck stop : Byte) :
    wire c p ck stop = sof :: c :: hi8 (lenOf p) :: lo8 (lenOf p) :: (p ++ [ck, stop]) := rfl

@[simp] theorem wire_length (c : Byte) (p : List Byte) (ck stop : Byte) : (wire c p ck stop).length = p.length + 6 := by
  simp [wire_eq]

@[simp] theorem checksumFrom_nil (a : Byte) : checksumFrom a [] = a := rfl

@[simp] theorem checksumFrom_cons (a b : Byte) (p : List Byte) :
    checksumFrom a (b :: p) = checksumFrom (byteStep a b) p := rfl

theorem checksumFrom_append (a : Byte) (p q : List Byte) :
    checksumFrom a (p ++ q) = checksumFrom (checksumFrom a p) q := List.foldl_append

@[simp] theorem checksum_nil : checksum [] = ckInit := rfl

theorem checksum_append (p : List Byte) (b : Byte) : checksum (p ++ [b]) = byteStep (checksum p) b := by
  simp [checksum, checksumFrom_append]

/-- DecodeA on bytes that hold a whole header: only what follows it matters (R161). -/
theorem decodeA_header (c hi lo : Byte) (r : List Byte) :
    decodeA (sof :: c :: hi :: lo :: r) =
      if r.length < (joinLen hi lo).toNat + 2 then (.error .truncated, r.length + 4)
      else if r.getD ((joinLen hi lo).toNat + 1) 0#8 ≠ eof then (.error .badEndByte, (joinLen hi lo).toNat + 6)
      else if r.getD (joinLen hi lo).toNat 0#8 ≠ checksum (r.take (joinLen hi lo).toNat) then
        (.error .checksumMismatch, (joinLen hi lo).toNat + 6)
      else (.ok c (r.take (joinLen hi lo).toNat), (joinLen hi lo).toNat + 6) := by
  have hL : declaredLen (sof :: c :: hi :: lo :: r) = (joinLen hi lo).toNat := by simp [declaredLen]
  have hF : framePayload (sof :: c :: hi :: lo :: r) = r.take (joinLen hi lo).toNat := by simp [framePayload, hL]
  have h5 : (sof :: c :: hi :: lo :: r).getD (5 + (joinLen hi lo).toNat) 0#8 = r.getD ((joinLen hi lo).toNat + 1) 0#8 := by
    rw [show 5 + (joinLen hi lo).toNat = ((joinLen hi lo).toNat + 1) + 4 by omega]; rfl
  have h4 : (sof :: c :: hi :: lo :: r).getD (4 + (joinLen hi lo).toNat) 0#8 = r.getD (joinLen hi lo).toNat 0#8 := by
    rw [Nat.add_comm]; rfl
  rw [decodeA, hL, hF, h5, h4]
  have e0 : (sof :: c :: hi :: lo :: r).length = r.length + 4 := rfl
  rw [e0, if_neg (by omega), if_neg (by simp), if_neg (by omega)]
  by_cases h : r.length < (joinLen hi lo).toNat + 2
  · rw [if_pos (by omega), if_pos h]
  · rw [if_neg (by omega), if_neg h]; rfl

end Sys2Proof.Machine
end

