-- ==== Sys2Proof/Laws/Encoder.lean ====
section
/-! SUPPORT. Laws of the encoder: what one accepted byte does, and the whole run of an ENCODE as one update. -/

namespace Sys2Proof.Machine

/-- A byte of TXBUF as an ENCODE reads it depends on the buffer and the ENCODE's number alone. -/
theorem txByte_congr {s t : State} (h1 : t.txbuf = s.txbuf) (h2 : t.encodes = s.encodes) : txByte t = txByte s := by
  simp [txByte, h1, h2]

theorem txPayload_congr {s t : State} (h1 : t.txbuf = s.txbuf) (h2 : t.encodes = s.encodes) (n : Nat) :
    txPayload t n = txPayload s n := by
  simp [txPayload, txByte_congr h1 h2]

@[simp] theorem txPayload_length (s : State) (n : Nat) : (txPayload s n).length = n := by simp [txPayload]

theorem txPayload_succ (s : State) (n : Nat) : txPayload s (n + 1) = txPayload s n ++ [txByte s n] := by
  simp [txPayload, List.range_succ]

/-- Where the host has written the payload, the payload is what it wrote (R50, R272). -/
theorem txPayload_of_holds {s : State} {p : List Byte} (h : memHolds s.txbuf p) : txPayload s p.length = p := by
  apply List.ext_getElem (by simp)
  intro i h1 h2
  simp [txPayload, txByte, txByteOf, h i h2, h2]

@[simp] theorem txRun_zero (s : State) : txRun 0 s = s := rfl

theorem txRun_succ (n : Nat) (s : State) : txRun (n + 1) s = txRun n (txStep s) := rfl

theorem txRun_add (m n : Nat) : ∀ s, txRun (m + n) s = txRun n (txRun m s) := by
  induction m with
  | zero => intro s; simp
  | succ m ih => intro s; rw [Nat.succ_add, txRun_succ, txRun_succ, ih]

/-- In a phase that offers no byte, nothing is accepted. -/
theorem txStep_of_not_valid {s : State} (h : txValid s = false) : txStep s = s := by
  cases hp : s.phase <;> simp_all [txValid, Phase.sends, txStep]

theorem txRun_of_not_valid {s : State} (h : txValid s = false) (n : Nat) : txRun n s = s := by
  induction n with
  | zero => rfl
  | succ n ih => rw [txRun_succ, txStep_of_not_valid h, ih]

theorem idx_succ_toNat {i n : Half} (h : i.toNat < n.toNat) : (i + 1#16).toNat = i.toNat + 1 := by
  have := n.isLt; rw [BitVec.toNat_add]; simp; omega

theorem idx_succ_eq_iff {i n : Half} (h : i.toNat < n.toNat) : i + 1#16 = n ↔ i.toNat + 1 = n.toNat := by
  rw [← BitVec.toNat_inj, idx_succ_toNat h]

/-- The payload phase as one update (R137, R138). -/
theorem txRun_payload (n : Nat) : ∀ s : State, s.phase = .ePay → s.idx.toNat + (n + 1) = s.len.toNat →
    txRun (n + 1) s = { s with
      phase := .eCk
      idx := s.len
      acc := checksumFrom s.acc ((List.range' s.idx.toNat (n + 1)).map (txByte s))
      linkTx := s.linkTx ++ (List.range' s.idx.toNat (n + 1)).map (txByte s) } := by
  induction n with
  | zero =>
    intro s hp h
    have e : s.idx + 1#16 = s.len := (idx_succ_eq_iff (by omega)).2 (by omega)
    simp only [txRun, txStep, hp, offeredByte, sendByte, if_pos e]
    rw [e]
    simp
  | succ n ih =>
    intro s hp h
    have e : ¬ s.idx + 1#16 = s.len := fun h' => by have := (idx_succ_eq_iff (by omega)).1 h'; omega
    have e' := idx_succ_toNat (i := s.idx) (n := s.len) (by omega)
    rw [txRun_succ, ih]
    · simp only [txStep, hp, offeredByte, sendByte, if_neg e, e', txByte]
      rw [List.range'_succ (n := n + 1)]
      simp
    · simp only [txStep, hp, if_neg e]
    · simp only [txStep, hp, e', sendByte]; omega

/-- The whole run of an ENCODE from phase E_SOF as one update: it sends exactly the frame (R132, R140, R141). -/
theorem txRun_frame {s : State} (hp : s.phase = .eSof) (hi : s.idx = 0#16) (ha : s.acc = ckInit) :
    txRun (s.len.toNat + 6) s = { s with
      phase := .idle
      done := true
      err := .none
      idx := s.len
      acc := checksum (txPayload s s.len.toNat)
      linkTx := s.linkTx ++ frame s.cmd (txPayload s s.len.toNat) } := by
  have hl : lenOf (txPayload s s.len.toNat) = s.len := by simp [lenOf]
  have h2 : ∀ t : State, t.phase = .eCk → txRun 2 t = { t with
      phase := .idle, done := true, err := .none, linkTx := t.linkTx ++ [t.acc, eof] } := by
    intro t ht; simp [txRun, txStep, ht, offeredByte, sendByte, finishWith]
  have h4 : txRun 4 s = { s with
      phase := if s.len = 0#16 then .eCk else .ePay, linkTx := s.linkTx ++ [sof, s.cmd, hi8 s.len, lo8 s.len] } := by
    simp [txRun, txStep, hp, offeredByte, sendByte]
  rcases Nat.eq_zero_or_pos s.len.toNat with h0 | h0
  · have h0' : s.len = 0#16 := BitVec.eq_of_toNat_eq (by simpa using h0)
    rw [show s.len.toNat + 6 = 4 + 2 by omega, txRun_add, h4, h2 _ (by simp only [if_pos h0'])]
    simp only [frame, wire, hl]
    rw [h0']
    simp [txPayload, checksum, ha, hi]
  · obtain ⟨n, hn⟩ : ∃ n, s.len.toNat = n + 1 := ⟨s.len.toNat - 1, by omega⟩
    have h0' : ¬ s.len = 0#16 := fun h => by rw [h] at h0; simp at h0
    have hi' : s.idx.toNat = 0 := by rw [hi]; rfl
    rw [show s.len.toNat + 6 = 4 + ((n + 1) + 2) by omega, txRun_add, h4, txRun_add,
      txRun_payload n _ (by simp only [if_neg h0']) (by simp only [hi', hn, Nat.zero_add]), h2 _ rfl]
    simp only [frame, wire, hl]
    simp only [hi', ha, checksum, txPayload, hn, List.range_eq_range', txByte]
    simp

/-- What an accepted byte leaves alone in every phase. -/
theorem txStep_frame (s : State) :
    (txStep s).txbuf = s.txbuf ∧ (txStep s).rxbuf = s.rxbuf ∧ (txStep s).encodes = s.encodes ∧
    (txStep s).draws = s.draws ∧ (txStep s).len = s.len ∧ (txStep s).cmd = s.cmd ∧ (txStep s).rxck = s.rxck ∧
    (txStep s).known = s.known ∧ (txStep s).linkRx = s.linkRx ∧ (txStep s).session = s.session ∧
    (txStep s).inputs = s.inputs ∧ (txStep s).readout = s.readout ∧ (txStep s).bridge = s.bridge ∧
    (txStep s).linkReply = s.linkReply ∧ (txStep s).facade = s.facade := by
  cases hp : s.phase <;> simp [txStep, hp]

/-- What any number of accepted bytes leaves alone. -/
theorem txRun_leaves (n : Nat) : ∀ s : State,
    (txRun n s).txbuf = s.txbuf ∧ (txRun n s).rxbuf = s.rxbuf ∧ (txRun n s).encodes = s.encodes ∧
    (txRun n s).draws = s.draws ∧ (txRun n s).len = s.len ∧ (txRun n s).cmd = s.cmd ∧ (txRun n s).rxck = s.rxck ∧
    (txRun n s).known = s.known ∧ (txRun n s).linkRx = s.linkRx ∧ (txRun n s).session = s.session ∧
    (txRun n s).inputs = s.inputs ∧ (txRun n s).readout = s.readout ∧ (txRun n s).bridge = s.bridge ∧
    (txRun n s).linkReply = s.linkReply ∧ (txRun n s).facade = s.facade := by
  induction n with
  | zero => intro s; simp
  | succ n ih =>
    intro s
    obtain ⟨a1, a2, a3, a4, a5, a6, a7, a8, a9, a10, a11, a12, a13⟩ := ih (txStep s)
    obtain ⟨b1, b2, b3, b4, b5, b6, b7, b8, b9, b10, b11, b12, b13⟩ := txStep_frame s
    rw [txRun_succ]
    exact ⟨a1.trans b1, a2.trans b2, a3.trans b3, a4.trans b4, a5.trans b5, a6.trans b6, a7.trans b7, a8.trans b8,
      a9.trans b9, a10.trans b10, a11.trans b11, a12.trans b12, a13.1.trans b13.1, a13.2.1.trans b13.2.1,
        a13.2.2.trans b13.2.2⟩

/-- LINK_TX only grows (R53). -/
theorem txStep_linkTx (s : State) : s.linkTx <+: (txStep s).linkTx := by
  cases hp : s.phase <;> simp [txStep, hp]

theorem txRun_linkTx (n : Nat) : ∀ s : State, s.linkTx <+: (txRun n s).linkTx := by
  induction n with
  | zero => intro s; exact List.prefix_refl _
  | succ n ih => intro s; exact (txStep_linkTx s).trans (ih _)

end Sys2Proof.Machine
end

