-- ==== Sys2Proof/Laws/Memory.lean ====
section
/-! SUPPORT. Laws of the payload buffers: what a read finds after each operation, and that each keeps the canonical
form. -/

namespace Sys2Proof.Machine

@[simp] theorem memRead_nil (i : Nat) : memRead [] i = none := rfl

theorem memRead_memWrite (m : Memory) (i j : Nat) (b : Byte) :
    memRead (memWrite m i b) j = if i = j then some b else memRead m j := by
  induction m with
  | nil => simp [memWrite, memRead]
  | cons c m ih =>
    obtain ⟨a, x⟩ := c
    simp only [memWrite]
    split
    · simp [memRead]
    · split
      · subst i
        by_cases h : a = j <;> simp [memRead, h]
      · simp only [memRead, ih]
        by_cases h : a = j <;> by_cases h' : i = j <;> simp_all

@[simp] theorem memRead_memWrite_same (m : Memory) (i : Nat) (b : Byte) : memRead (memWrite m i b) i = some b := by
  simp [memRead_memWrite]

theorem memRead_memWrite_other (m : Memory) (b : Byte) {i j : Nat} (h : i ≠ j) :
    memRead (memWrite m i b) j = memRead m j := by
  simp [memRead_memWrite, h]

theorem memRead_memBelow (m : Memory) (n i : Nat) :
    memRead (memBelow m n) i = if i < n then memRead m i else none := by
  induction m with
  | nil => simp [memBelow]
  | cons c m ih =>
    obtain ⟨a, x⟩ := c
    simp only [memBelow, List.filter_cons] at ih ⊢
    by_cases ha : a < n
    · by_cases h : a = i
      · subst h; simp [memRead, ha]
      · simp [memRead, ha, h, ih]
    · by_cases h : a = i
      · subst h; simp [ha, ih]
      · simp [memRead, ha, h, ih]

theorem memRead_memLoad (p : List Byte) : ∀ (m : Memory) (i j : Nat),
    memRead (memLoad m i p) j = if i ≤ j ∧ j < i + p.length then p[j - i]? else memRead m j := by
  induction p with
  | nil => intro m i j; simp [memLoad]
  | cons b p ih =>
    intro m i j
    rw [memLoad, ih, memRead_memWrite]
    rcases lt_trichotomy i j with h | h | h
    · have e : j - i = (j - (i + 1)) + 1 := by omega
      by_cases h2 : j < i + 1 + p.length
      · rw [if_pos ⟨by omega, h2⟩, if_pos ⟨by omega, by simp; omega⟩, e, List.getElem?_cons_succ]
      · rw [if_neg (by omega), if_neg (by omega), if_neg (by simp; omega)]
    · subst h; simp
    · rw [if_neg (by omega), if_neg (by omega), if_neg (by omega)]

theorem memHolds_memLoad (m : Memory) (p : List Byte) : memHolds (memLoad m 0 p) p := by
  intro i hi
  rw [memRead_memLoad]; simp [hi]

theorem Memory.wf_cons {a : Nat} {x : Byte} {m : Memory} :
    Memory.wf ((a, x) :: m) = true ↔ a < maxPayload ∧ (∀ c ∈ m, a < c.1) ∧ Memory.wf m = true := by
  simp [Memory.wf, and_assoc]

theorem memWrite_mem {m : Memory} {i : Nat} {b : Byte} {c : Host.Cell} (h : c ∈ memWrite m i b) :
    c = (i, b) ∨ c ∈ m := by
  induction m with
  | nil => simpa [memWrite] using h
  | cons d m ih =>
    obtain ⟨a, x⟩ := d
    simp only [memWrite] at h
    split at h
    · simpa using h
    · split at h
      · rcases List.mem_cons.1 h with h | h
        · exact .inl h
        · exact .inr (List.mem_cons_of_mem _ h)
      · rcases List.mem_cons.1 h with h | h
        · exact .inr (h ▸ List.mem_cons_self)
        · exact (ih h).imp id (List.mem_cons_of_mem _)

theorem wf_memWrite {m : Memory} {i : Nat} (b : Byte) (hm : Memory.wf m = true) (hi : i < maxPayload) :
    Memory.wf (memWrite m i b) = true := by
  induction m with
  | nil => simp [memWrite, Memory.wf, hi]
  | cons d m ih =>
    obtain ⟨a, x⟩ := d
    obtain ⟨h1, h2, h3⟩ := Memory.wf_cons.1 hm
    simp only [memWrite]
    split
    · rename_i hlt
      refine Memory.wf_cons.2 ⟨hi, fun c hc => ?_, hm⟩
      rcases List.mem_cons.1 hc with rfl | hc
      · exact hlt
      · exact hlt.trans (h2 c hc)
    · split
      · rename_i he
        subst he
        exact Memory.wf_cons.2 ⟨hi, h2, h3⟩
      · refine Memory.wf_cons.2 ⟨h1, fun c hc => ?_, ih h3⟩
        rcases memWrite_mem hc with rfl | hc
        · simp only; omega
        · exact h2 c hc

theorem wf_memBelow {m : Memory} (n : Nat) (hm : Memory.wf m = true) : Memory.wf (memBelow m n) = true := by
  induction m with
  | nil => rfl
  | cons d m ih =>
    obtain ⟨a, x⟩ := d
    obtain ⟨h1, h2, h3⟩ := Memory.wf_cons.1 hm
    simp only [memBelow, List.filter_cons] at ih ⊢
    split
    · exact Memory.wf_cons.2 ⟨h1, fun c hc => h2 c (List.mem_of_mem_filter hc), ih h3⟩
    · exact ih h3

theorem wf_memLoad (p : List Byte) : ∀ (m : Memory) (i : Nat), Memory.wf m = true → i + p.length ≤ maxPayload →
    Memory.wf (memLoad m i p) = true := by
  induction p with
  | nil => intro m i hm _; exact hm
  | cons b p ih =>
    intro m i hm h
    simp only [List.length_cons] at h
    exact ih _ _ (wf_memWrite b hm (by omega)) (by omega)

/-- What a buffer that holds `p` gives when its first `|p|` bytes are read in order. -/
theorem filterMap_memRead {m : Memory} {p : List Byte} (h : memHolds m p) :
    (List.range p.length).filterMap (memRead m) = p := by
  have e : (List.range p.length).filterMap (memRead m) = (List.range p.length).filterMap (fun i => p[i]?) :=
    List.filterMap_congr fun i hi => h i (List.mem_range.1 hi)
  rw [e]
  clear e h
  induction p using List.reverseRecOn with
  | nil => rfl
  | append_singleton p b ih =>
    rw [List.length_append, List.length_singleton, List.range_succ, List.filterMap_append]
    have e : (List.range p.length).filterMap (fun i => (p ++ [b])[i]?) = (List.range p.length).filterMap (fun i => p[i]?) :=
      List.filterMap_congr fun i hi => by rw [List.getElem?_append_left (List.mem_range.1 hi)]
    rw [e, ih]; simp

end Sys2Proof.Machine
end

