-- ==== Sys2Proof/Laws/Decoder.lean ====
section
/-! SUPPORT. Laws of the decoder: what delivered bytes do, and the whole run of a DECODE against Level A. -/

namespace Sys2Proof.Machine

@[simp] theorem deliver_nil (s : State) : deliver [] s = s := rfl

theorem deliver_cons {s : State} (h : rxWant s = true) (b : Byte) (bs : List Byte) :
    deliver (b :: bs) s = deliver bs (rxStep b s) := by
  simp [deliver, h]

/-- A block that wants no byte leaves them all at the head of LINK_RX. -/
theorem deliver_of_not_want {s : State} (h : rxWant s = false) (bs : List Byte) :
    deliver bs s = { s with linkRx := bs ++ s.linkRx } := by
  cases bs <;> simp [deliver, h]

/-- What a delivered byte or a timeout leaves alone in every phase. -/
theorem rxStep_frame (b : Byte) (s : State) :
    (rxStep b s).txbuf = s.txbuf ∧ (rxStep b s).encodes = s.encodes ∧ (rxStep b s).draws = s.draws ∧
    (rxStep b s).linkTx = s.linkTx ∧ (rxStep b s).linkRx = s.linkRx ∧ (rxStep b s).session = s.session ∧
    (rxStep b s).inputs = s.inputs ∧ (rxStep b s).readout = s.readout ∧ (rxStep b s).bridge = s.bridge ∧
    (rxStep b s).linkReply = s.linkReply ∧ (rxStep b s).facade = s.facade := by
  cases hp : s.phase <;> simp only [rxStep, hp, endStep] <;> (repeat' split) <;> simp

theorem timeoutStep_frame (s : State) :
    (timeoutStep s).txbuf = s.txbuf ∧ (timeoutStep s).encodes = s.encodes ∧ (timeoutStep s).draws = s.draws ∧
    (timeoutStep s).linkTx = s.linkTx ∧ (timeoutStep s).linkRx = s.linkRx ∧ (timeoutStep s).session = s.session ∧
    (timeoutStep s).inputs = s.inputs ∧ (timeoutStep s).readout = s.readout ∧
    (timeoutStep s).bridge = s.bridge ∧ (timeoutStep s).linkReply = s.linkReply ∧ (timeoutStep s).facade = s.facade := by
  cases hp : s.phase <;> simp [timeoutStep, hp]

/-- What delivered bytes leave alone. -/
theorem deliver_leaves (bs : List Byte) : ∀ s : State,
    (deliver bs s).txbuf = s.txbuf ∧ (deliver bs s).encodes = s.encodes ∧ (deliver bs s).draws = s.draws ∧
    (deliver bs s).linkTx = s.linkTx ∧ (deliver bs s).session = s.session ∧ (deliver bs s).inputs = s.inputs ∧
    (deliver bs s).readout = s.readout ∧ (deliver bs s).bridge = s.bridge ∧
    (deliver bs s).linkReply = s.linkReply ∧ (deliver bs s).facade = s.facade := by
  induction bs with
  | nil => intro s; simp
  | cons b bs ih =>
    intro s
    cases h : rxWant s with
    | false => simp [deliver_of_not_want h]
    | true =>
      obtain ⟨a1, a2, a3, a4, a5, a6, a7, a8⟩ := ih (rxStep b s)
      obtain ⟨b1, b2, b3, b4, -, b6, b7, b8, b9⟩ := rxStep_frame b s
      rw [deliver_cons h]
      exact ⟨a1.trans b1, a2.trans b2, a3.trans b3, a4.trans b4, a5.trans b6, a6.trans b7, a7.trans b8,
        a8.1.trans b9.1, a8.2.1.trans b9.2.1, a8.2.2.trans b9.2.2⟩

/-- What a DECODE whose reads are all answered leaves alone. -/
theorem answerAll_leaves (s : State) :
    (answerAll s).txbuf = s.txbuf ∧ (answerAll s).encodes = s.encodes ∧ (answerAll s).draws = s.draws ∧
    (answerAll s).linkTx = s.linkTx ∧ (answerAll s).session = s.session ∧ (answerAll s).inputs = s.inputs ∧
    (answerAll s).readout = s.readout ∧ (answerAll s).bridge = s.bridge ∧ (answerAll s).linkReply = s.linkReply ∧
    (answerAll s).facade = s.facade := by
  obtain ⟨a1, a2, a3, a4, a5, a6, a7, a8⟩ := deliver_leaves s.linkRx { s with linkRx := [] }
  obtain ⟨b1, b2, b3, b4, -, b6, b7, b8, b9⟩ := timeoutStep_frame (deliver s.linkRx { s with linkRx := [] })
  simp only [answerAll]
  split
  · exact ⟨b1.trans a1, b2.trans a2, b3.trans a3, b4.trans a4, b6.trans a5, b7.trans a6, b8.trans a7,
        b9.1.trans a8.1, b9.2.1.trans a8.2.1, b9.2.2.trans a8.2.2⟩
  · exact ⟨a1, a2, a3, a4, a5, a6, a7, a8⟩

/-- The header of a frame as one update (R163). -/
theorem deliver_header {s : State} (hp : s.phase = .dSof) (c hi lo : Byte) (r : List Byte) :
    deliver (sof :: c :: hi :: lo :: r) s = deliver r { s with
      phase := if joinLen hi lo = 0#16 then .dCk else .dPay
      cmd := c
      len := joinLen hi lo
      idx := 0#16
      acc := ckInit } := by
  simp [deliver, rxWant, Phase.receives, hp, rxStep]

/-- The payload phase as one update (R163): the bytes of `p` are stored in order. -/
theorem deliver_payload (p : List Byte) : ∀ (s : State) (r : List Byte), s.phase = .dPay → p ≠ [] →
    s.idx.toNat + p.length ≤ s.len.toNat →
    deliver (p ++ r) s = deliver r { s with
      phase := if s.idx.toNat + p.length = s.len.toNat then .dCk else .dPay
      idx := s.idx + BitVec.ofNat 16 p.length
      acc := checksumFrom s.acc p
      rxbuf := memLoad s.rxbuf s.idx.toNat p } := by
  induction p with
  | nil => intro s r _ h; exact absurd rfl h
  | cons b p ih =>
    intro s r hp _ hl
    simp only [List.length_cons] at hl
    have hw : rxWant s = true := by simp [rxWant, hp, Phase.receives]
    have hi : (s.idx + 1#16).toNat = s.idx.toNat + 1 := idx_succ_toNat (n := s.len) (by omega)
    have he : s.idx + 1#16 = s.len ↔ s.idx.toNat + 1 = s.len.toNat := idx_succ_eq_iff (by omega)
    rw [List.cons_append, deliver_cons hw]
    rcases eq_or_ne p [] with rfl | hne
    · simp only [rxStep, hp, he, List.nil_append, List.length_cons, List.length_nil, Nat.zero_add, checksumFrom_cons,
        checksumFrom_nil, memLoad]
    · have hpos := List.length_pos_of_ne_nil hne
      have h1 : ¬ s.idx.toNat + 1 = s.len.toNat := by omega
      rw [ih _ r (by simp only [rxStep, hp, he, if_neg h1]) hne (by simp only [rxStep, hp, hi]; omega)]
      simp only [rxStep, hp, hi, he, if_neg h1, List.length_cons, checksumFrom_cons, memLoad]
      rw [show s.idx.toNat + 1 + p.length = s.idx.toNat + (p.length + 1) by omega,
        show s.idx + 1#16 + BitVec.ofNat 16 p.length = s.idx + BitVec.ofNat 16 (p.length + 1) by
          rw [BitVec.ofNat_add, BitVec.add_assoc, BitVec.add_comm 1#16]]

/-- The state of a DECODE that has taken a whole payload `p` after the header. -/
theorem deliver_body {s : State} (hp : s.phase = .dSof) (c hi lo : Byte) (p q : List Byte)
    (hl : p.length = (joinLen hi lo).toNat) :
    deliver (sof :: c :: hi :: lo :: (p ++ q)) s = deliver q { s with
      phase := .dCk
      cmd := c
      len := joinLen hi lo
      idx := joinLen hi lo
      acc := checksum p
      rxbuf := memLoad s.rxbuf 0 p } := by
  rw [deliver_header hp]
  rcases eq_or_ne p [] with rfl | hne
  · have h0 : joinLen hi lo = 0#16 := BitVec.eq_of_toNat_eq (by simpa using hl.symm)
    simp only [h0, if_true, List.nil_append, memLoad, checksum_nil]
  · have hpos := List.length_pos_of_ne_nil hne
    have h0 : ¬ joinLen hi lo = 0#16 := fun h => by rw [h] at hl; simp at hl; exact hne hl
    rw [deliver_payload p _ q (by simp only [if_neg h0]) hne (by simp [hl])]
    simp [hl, checksum]

/-- The footer as one update (R163): both bytes are taken before either check, the end byte is checked first. -/
theorem deliver_footer {s : State} (hp : s.phase = .dCk) (ck stop : Byte) (r : List Byte) :
    deliver (ck :: stop :: r) s = { endStep stop { s with phase := .dEof, rxck := ck } with linkRx := r ++ s.linkRx } := by
  have h1 : deliver (ck :: stop :: r) s = deliver r (endStep stop { s with phase := .dEof, rxck := ck }) := by
    simp [deliver, rxWant, Phase.receives, hp, rxStep]
  have h2 : rxWant (endStep stop { s with phase := .dEof, rxck := ck }) = false := by
    simp only [endStep]; (repeat' split) <;> simp [rxWant, Phase.receives]
  rw [h1, deliver_of_not_want h2]
  simp only [endStep]; (repeat' split) <;> simp

theorem failDecode_leaves (e : ErrCode) (s : State) :
    DecodeLeaves (.error e) (failDecode e s) := by
  simp [DecodeLeaves, DecodeResult.code]

/-- A whole DECODE at Level B hands back what Level A says (R168), and leaves pending what R165 says. -/
theorem answerAll_levelA {s : State} (hp : s.phase = .dSof) :
    DecodeLeaves (decodeA s.linkRx).1 (answerAll s) ∧
      (answerAll s).linkRx = s.linkRx.drop (decodeA s.linkRx).2 := by
  have short : ∀ t : State, t.linkRx = [] → t.phase ≠ .dSof → rxWant t = true →
      DecodeLeaves (.error .truncated) (timeoutStep t) ∧ (timeoutStep t).linkRx = [] := by
    intro t h1 h2 h3
    have : timeoutStep t = failDecode .truncated t := by
      cases hq : t.phase <;> simp_all [timeoutStep, rxWant, Phase.receives]
    rw [this]
    exact ⟨failDecode_leaves _ _, by simpa using h1⟩
  simp only [answerAll]
  generalize s.linkRx = bs
  generalize hs : ({ s with linkRx := [] } : State) = t
  have ht : t.phase = .dSof := by rw [← hs]; exact hp
  have hr : t.linkRx = [] := by rw [← hs]
  clear hs
  match bs with
  | [] =>
    have hw : rxWant t = true := by simp [rxWant, ht, Phase.receives]
    simp [hw, decodeA, timeoutStep, ht, failDecode_leaves, hr]
  | b0 :: r0 =>
    by_cases hb : b0 = sof
    · subst hb
      match r0 with
      | [] =>
        simpa [deliver, rxWant, ht, Phase.receives, rxStep, decodeA] using
          short { t with phase := .dCmd } hr (by simp) rfl
      | [c] =>
        simpa [deliver, rxWant, ht, Phase.receives, rxStep, decodeA] using
          short { t with phase := .dLenh, cmd := c } hr (by simp) rfl
      | [c, hi] =>
        simpa [deliver, rxWant, ht, Phase.receives, rxStep, decodeA] using
          short { t with phase := .dLenl, cmd := c, len := joinLen hi (lo8 t.len) } hr (by simp) rfl
      | c :: hi :: lo :: r =>
        rw [decodeA_header]
        rcases Nat.lt_or_ge r.length (joinLen hi lo).toNat with hlt | hge
        · rw [if_pos (by omega)]
          have h0 : ¬ joinLen hi lo = 0#16 := fun h => by rw [h] at hlt; simp at hlt
          rcases eq_or_ne r [] with rfl | hne
          · simp only [deliver_header ht, deliver_nil, if_neg h0]
            simpa [rxWant, Phase.receives] using short { t with
              phase := .dPay, cmd := c, len := joinLen hi lo, idx := 0#16, acc := ckInit } hr (by simp) rfl
          · have := deliver_payload r { t with
              phase := .dPay, cmd := c, len := joinLen hi lo, idx := 0#16, acc := ckInit } [] rfl hne (by simp; omega)
            simp only [List.append_nil, deliver_nil] at this
            simp only [deliver_header ht, if_neg h0, this]
            have hne' : ¬ (0#16).toNat + r.length = (joinLen hi lo).toNat := by simp; omega
            simp only [if_neg hne']
            simpa [rxWant, Phase.receives] using short { t with
              phase := .dPay, cmd := c, len := joinLen hi lo, idx := 0#16 + BitVec.ofNat 16 r.length,
              acc := checksumFrom ckInit r, rxbuf := memLoad t.rxbuf 0 r } hr (by simp) rfl
        · obtain ⟨p, q, rfl, hpl⟩ : ∃ p q, r = p ++ q ∧ p.length = (joinLen hi lo).toNat :=
            ⟨r.take (joinLen hi lo).toNat, r.drop (joinLen hi lo).toNat, by simp, by simp; omega⟩
          rw [deliver_body ht c hi lo p q hpl]
          match q with
          | [] =>
            rw [if_pos (by simp; omega)]
            simpa [rxWant, Phase.receives] using short { t with
              phase := .dCk, cmd := c, len := joinLen hi lo, idx := joinLen hi lo, acc := checksum p,
              rxbuf := memLoad t.rxbuf 0 p } hr (by simp) rfl
          | [ck] =>
            rw [if_pos (by simp; omega)]
            simpa [rxWant, Phase.receives, deliver, rxStep] using short { t with
              phase := .dEof, cmd := c, len := joinLen hi lo, idx := joinLen hi lo, acc := checksum p, rxck := ck,
              rxbuf := memLoad t.rxbuf 0 p } hr (by simp) rfl
          | ck :: stop :: rest =>
            rw [if_neg (by simp; omega), deliver_footer rfl]
            have e1 : (p ++ ck :: stop :: rest).getD ((joinLen hi lo).toNat + 1) 0#8 = stop := by
              rw [← hpl]; simp
            have e2 : (p ++ ck :: stop :: rest).getD (joinLen hi lo).toNat 0#8 = ck := by
              rw [← hpl]; simp
            have e3 : (p ++ ck :: stop :: rest).take (joinLen hi lo).toNat = p := by
              rw [← hpl]; simp
            have e4 : (sof :: c :: hi :: lo :: (p ++ ck :: stop :: rest)).drop ((joinLen hi lo).toNat + 6) = rest := by
              rw [← hpl, show p.length + 6 = (p.length + 2) + 4 by omega]
              simp [List.drop_append]
            rw [e1, e2, e3]
            by_cases h1 : stop = eof
            · subst h1
              by_cases h2 : ck = checksum p
              · subst h2
                have hm : memHolds (memLoad t.rxbuf 0 p) p := memHolds_memLoad _ _
                simp only [endStep, rxWant, ne_eq, not_true_eq_false, if_false, passDecode_phase, Phase.receives, hr,
                  Bool.false_eq_true, e4]
                refine ⟨⟨rfl, rfl, rfl, rfl, ?_, rfl, rfl, rfl, rfl, ?_, ?_⟩, by simp⟩
                · simpa using hpl.symm
                · intro i hi'
                  simp only [passDecode_rxbuf, memRead_memBelow, ← hpl, hi', if_true]
                  exact hm i hi'
                · intro i hi'
                  simp only [passDecode_rxbuf, memRead_memBelow, ← hpl]
                  rw [if_neg (by omega)]
              · simp only [endStep, rxWant, h2, ne_eq, not_true_eq_false, not_false_eq_true, if_false, if_true,
                  failDecode_phase, Phase.receives, hr, Bool.false_eq_true, e4]
                exact ⟨by simp [DecodeLeaves, DecodeResult.code], by simp⟩
            · simp only [endStep, rxWant, h1, ne_eq, not_false_eq_true, if_true, failDecode_phase, Phase.receives, hr,
                Bool.false_eq_true, if_false, e4]
              exact ⟨by simp [DecodeLeaves, DecodeResult.code], by simp⟩
    · have : deliver (b0 :: r0) t = { failDecode .badStartByte t with linkRx := r0 } := by
        rw [deliver_cons (by simp [rxWant, ht, Phase.receives])]
        rw [deliver_of_not_want (by simp [rxStep, ht, hb, rxWant, Phase.receives])]
        simp [rxStep, ht, hb, hr]
      rw [this]
      simp [decodeA, hb, rxWant, Phase.receives, DecodeLeaves, DecodeResult.code]

end Sys2Proof.Machine
end

