-- ==== Sys2Proof/Laws/Frame.lean ====
section
/-! SUPPORT. Laws of the frame classes: how the table's decoder cuts a frame out of a stream, and that every frame class
runs as one shared operation. -/

namespace Sys2Proof.Machine

/-- A frame that is not the one an ENCODE is about to send is delivered. -/
theorem passFrame_deliver {bs : List Byte} {s : State} (h : s.phase = .eSof → offeredBytes s ≠ bs) :
    passFrame bs s = .next (deliver bs s) :=
  if_neg fun ⟨h1, h2⟩ => h h1 h2

/-- A DECODE in progress takes a frame's bytes. -/
theorem passFrame_receive {s : State} (h : rxWant s = true) (bs : List Byte) : passFrame bs s = .next (deliver bs s) :=
  passFrame_deliver fun hp => by simp [rxWant, hp, Phase.receives] at h

/-- The frame an ENCODE offers is sent. -/
theorem passFrame_send {bs : List Byte} {s : State} (hp : s.phase = .eSof) (h : offeredBytes s = bs) :
    passFrame bs s = .next (txRun (s.len.toNat + 6) s) :=
  if_pos ⟨hp, h⟩

/-- A frame always has a next state: it is sent or delivered. -/
theorem passFrame_cases {bs : List Byte} {s t : State} (h : passFrame bs s = .next t) :
    (s.phase = .eSof ∧ t = txRun (s.len.toNat + 6) s) ∨ t = deliver bs s := by
  unfold passFrame at h
  split at h <;> cases h
  · rename_i hc; exact .inl ⟨hc.1, rfl⟩
  · exact .inr rfl

/-- A frame instruction runs as the passing of its wire bytes, whatever its class (R88). -/
theorem exec_frame {i : Instr} {c : Byte} {f : Body} (h : i.frameParts = some (c, f)) (s : State) :
    exec i s = passFrame (bodyBytes c f) s := by
  cases i <;> simp only [Instr.frameParts, Option.some.injEq, Prod.mk.injEq, reduceCtorEq] at h <;>
    obtain ⟨rfl, rfl⟩ := h <;> rfl

/-- The encoder writes a frame instruction as its wire bytes. -/
theorem encode_frame {i : Instr} {c : Byte} {f : Body} (h : i.frameParts = some (c, f)) :
    encode i = .wire (bodyBytes c f) := by
  cases i <;> simp only [Instr.frameParts, Option.some.injEq, Prod.mk.injEq, reduceCtorEq] at h <;>
    obtain ⟨rfl, rfl⟩ := h <;> rfl

/-- A frame instruction that fits its encoding has a payload that fits the length field. -/
theorem payload_le_of_encodable {i : Instr} {c : Byte} {f : Body} (h : i.frameParts = some (c, f))
    (he : i.Encodable = true) : f.payload.length ≤ maxPayload := by
  cases i <;> simp only [Instr.frameParts, Option.some.injEq, Prod.mk.injEq, reduceCtorEq] at h <;>
    obtain ⟨rfl, rfl⟩ := h <;> simp_all [Instr.Encodable, payloadFits]

theorem nibbleCommand_parts (c : Byte) (k : BitVec 4) (h : c.extractLsb' 4 4 = k) :
    nibbleCommand k (c.extractLsb' 0 4) = c := by
  subst h
  have : ∀ c : Byte, nibbleCommand (c.extractLsb' 4 4) (c.extractLsb' 0 4) = c := by decide
  exact this c

theorem unassigned6_parts : ∀ c : Byte, c.extractLsb' 5 3 = 3#3 → (3#3 ++ c.extractLsb' 0 5 : BitVec 8) = c := by
  decide

theorem high_bit_of_not_named : ∀ c : Byte,
    (¬ c.extractLsb' 4 4 = 0#4 ∧ ¬ c.extractLsb' 4 4 = 1#4 ∧ ¬ c.extractLsb' 4 4 = 2#4 ∧ ¬ c.extractLsb' 4 4 = 3#4 ∧
      ¬ c.extractLsb' 4 4 = 4#4 ∧ ¬ c.extractLsb' 4 4 = 5#4 ∧ ¬ c.extractLsb' 5 3 = 3#3) →
    (1#1 ++ c.extractLsb' 0 7 : BitVec 8) = c := by
  decide

/-- The class a command is given has that command and that body. -/
theorem frameInstr_parts (c : Byte) (f : Body) : (frameInstr c f).frameParts = some (c, f) := by
  unfold frameInstr
  by_cases h : c = 0x00#8 ∧ f.payload = []
  · obtain ⟨rfl, h2⟩ := h
    obtain ⟨p, ck, stop⟩ := f
    simp only at h2
    subst h2
    rfl
  rw [if_neg h]
  by_cases h0 : c.extractLsb' 4 4 = 0#4
  · rw [if_pos h0, Instr.frameParts, nibbleCommand_parts _ _ h0]
  by_cases h1 : c.extractLsb' 4 4 = 1#4
  · rw [if_neg h0, if_pos h1, Instr.frameParts, nibbleCommand_parts _ _ h1]
  by_cases h2 : c.extractLsb' 4 4 = 2#4
  · rw [if_neg h0, if_neg h1, if_pos h2, Instr.frameParts, nibbleCommand_parts _ _ h2]
  by_cases h3 : c.extractLsb' 4 4 = 3#4
  · rw [if_neg h0, if_neg h1, if_neg h2, if_pos h3, Instr.frameParts, nibbleCommand_parts _ _ h3]
  by_cases h4 : c.extractLsb' 4 4 = 4#4
  · rw [if_neg h0, if_neg h1, if_neg h2, if_neg h3, if_pos h4, Instr.frameParts, nibbleCommand_parts _ _ h4]
  by_cases h5 : c.extractLsb' 4 4 = 5#4
  · rw [if_neg h0, if_neg h1, if_neg h2, if_neg h3, if_neg h4, if_pos h5, Instr.frameParts,
      nibbleCommand_parts _ _ h5]
  rw [if_neg h0, if_neg h1, if_neg h2, if_neg h3, if_neg h4, if_neg h5]
  by_cases h6 : c.extractLsb' 5 3 = 3#3
  · rw [if_pos h6]
    simp only [Instr.frameParts]
    rw [unassigned6_parts c h6]
  · rw [if_neg h6]
    simp only [Instr.frameParts]
    rw [high_bit_of_not_named c ⟨h0, h1, h2, h3, h4, h5, h6⟩]

theorem low_nibble_zero : ∀ c : Byte, c.extractLsb' 4 4 = 0#4 → c.extractLsb' 0 4 = 0#4 → c = 0x00#8 := by decide

/-- The class a command is given fits its encoding where the payload fits the length field: the ping request is never
taken for FRAME.SYS. -/
theorem frameInstr_encodable (c : Byte) {f : Body} (hf : f.payload.length ≤ maxPayload) :
    (frameInstr c f).Encodable = true := by
  unfold frameInstr
  by_cases h : c = 0x00#8 ∧ f.payload = []
  · rw [if_pos h]; rfl
  rw [if_neg h]
  by_cases h0 : c.extractLsb' 4 4 = 0#4
  · rw [if_pos h0]
    have : ¬ (c.extractLsb' 0 4 = 0#4 ∧ f.payload = []) := fun hc => h ⟨low_nibble_zero c h0 hc.1, hc.2⟩
    simp only [Instr.Encodable, payloadFits, notPing, Bool.and_eq_true, decide_eq_true_eq, Bool.not_eq_true']
    refine ⟨hf, ?_⟩
    by_contra hb
    simp only [Bool.not_eq_false, Bool.and_eq_true, decide_eq_true_eq, List.isEmpty_iff] at hb
    exact this hb
  · rw [if_neg h0]
    (repeat' split) <;> simp [Instr.Encodable, payloadFits, notPing, hf]

/-- The fields of a nibble class's command. -/
theorem nibble_fields : ∀ k c : BitVec 4, (nibbleCommand k c).extractLsb' 4 4 = k ∧
    (nibbleCommand k c).extractLsb' 0 4 = c := by decide

theorem unassigned6_fields : ∀ c : BitVec 5, (3#3 ++ c : BitVec 8).extractLsb' 5 3 = 3#3 ∧
    (3#3 ++ c : BitVec 8).extractLsb' 0 5 = c ∧ (3#3 ++ c : BitVec 8) ≠ 0x00#8 ∧
    ∀ k ∈ [0#4, 1#4, 2#4, 3#4, 4#4, 5#4], (3#3 ++ c : BitVec 8).extractLsb' 4 4 ≠ k := by decide

theorem unassigned8_fields : ∀ c : BitVec 7, (1#1 ++ c : BitVec 8).extractLsb' 5 3 ≠ 3#3 ∧
    (1#1 ++ c : BitVec 8).extractLsb' 0 7 = c ∧ (1#1 ++ c : BitVec 8) ≠ 0x00#8 ∧
    ∀ k ∈ [0#4, 1#4, 2#4, 3#4, 4#4, 5#4], (1#1 ++ c : BitVec 8).extractLsb' 4 4 ≠ k := by decide

/-- The table's decoder cuts a frame off a stream exactly where it stands whole at the front: the frame's wire bytes come
first, and the rest is what follows. -/
theorem decodeFrame_eq_frame {bs rest : List Byte} {i : Instr} (h : decodeFrame bs = .frame i rest) :
    ∃ c f, i = frameInstr c f ∧ f.payload.length ≤ maxPayload ∧ bs = bodyBytes c f ++ rest := by
  match bs, h with
  | [], h => simp [decodeFrame] at h
  | [b], h => by_cases hb : b = sof <;> simp [decodeFrame, hb] at h
  | [b, _], h => by_cases hb : b = sof <;> simp [decodeFrame, hb] at h
  | [b, _, _], h => by_cases hb : b = sof <;> simp [decodeFrame, hb] at h
  | b :: c :: hi :: lo :: r, h =>
    by_cases hb : b = sof
    · subst hb
      simp only [decodeFrame, if_true] at h
      simp only [cutBody] at h
      split at h
      · rename_i f rest' hcut
        split at hcut
        · rename_i ck stop rest'' hd
          simp only [Option.some.injEq, Prod.mk.injEq] at hcut
          obtain ⟨rfl, rfl⟩ := hcut
          simp only [Fetched.frame.injEq] at h
          obtain ⟨rfl, rfl⟩ := h
          have hlen : (joinLen hi lo).toNat ≤ r.length := by
            by_contra hc
            rw [List.drop_eq_nil_of_le (by omega)] at hd
            simp at hd
          have hp : (r.take (joinLen hi lo).toNat).length = (joinLen hi lo).toNat := by simp; omega
          refine ⟨c, ⟨r.take (joinLen hi lo).toNat, ck, stop⟩, rfl, ?_, ?_⟩
          · have := (joinLen hi lo).isLt
            simp only [hp, maxPayload]; omega
          · have hl : lenOf (r.take (joinLen hi lo).toNat) = joinLen hi lo := by
              rw [lenOf, hp]; simp
            simp only [bodyBytes, wire_eq, hl, hi8_joinLen, lo8_joinLen, List.cons_append, List.append_assoc,
              List.nil_append]
            rw [← hd, List.take_append_drop]
        · simp at hcut
      · simp at h
    · simp [decodeFrame, hb] at h

/-- A frame's wire bytes with anything after them are cut there. -/
theorem decodeFrame_bodyBytes (c : Byte) (f : Body) (rest : List Byte) (hf : f.payload.length ≤ maxPayload) :
    decodeFrame (bodyBytes c f ++ rest) = .frame (frameInstr c f) rest := by
  obtain ⟨p, ck, stop⟩ := f
  simp only [bodyBytes, wire_eq, List.cons_append, decodeFrame, if_true, joinLen_hi8_lo8, lenOf_toNat hf, cutBody,
    List.append_assoc, List.nil_append, List.drop_left, List.take_left]

end Sys2Proof.Machine
end

