-- ==== Sys2Proof/Laws/Events.lean ====
section
/-! SUPPORT. One lemma per event that says everything it can do when it answers a next state; a law about steps is a short
case analysis over these. -/

namespace Sys2Proof.Machine

/-- What a `start` selects is one of the four operations, no frame. -/
theorem decodeStart_frameParts (op : BitVec 2) (a : Byte) (plen : Nat) : (decodeStart op a plen).frameParts = none := by
  unfold decodeStart
  (repeat' split) <;> rfl

/-- A `start` that has a move runs its operation. -/
theorem exec_of_takeStart {op : BitVec 2} {a : Byte} {plen : Nat} {s t : State} (h : takeStart op a plen s = .next t) :
    exec (decodeStart op a plen) s = .next t := by
  unfold takeStart at h
  split at h
  · cases h
  · exact h

/-- The host's duty of R207 aside, a `start` runs its operation. -/
theorem takeStart_eq_exec {op : BitVec 2} {a : Byte} {plen : Nat} {s : State}
    (h : op ≠ 3#2 ∨ s.session ≠ .closed ∨ s.phase ≠ .idle) : takeStart op a plen s = exec (decodeStart op a plen) s :=
  if_neg fun ⟨h1, h2, h3⟩ => by
    rcases h with h | h | h
    · exact h h1
    · exact h h2
    · exact h h3

/-- Whatever runs in a transfer is a frame that passes, or what is left of the operation. -/
theorem transfer_cases {s t : State} (h : transfer s = .next t) :
    (∃ bs rest, s.phase = .dSof ∧ passFrame bs { s with linkRx := rest } = .next t) ∨
    (∃ bs, passFrame bs s = .next t) ∨ (rxWant s = true ∧ t = answerAll s) ∨
    (txValid s = true ∧ t = txRun (s.len.toNat + 6) s) := by
  unfold transfer at h
  split at h
  · rename_i hp
    split at h
    · rename_i hd
      obtain ⟨c, f, rfl, -, -⟩ := decodeFrame_eq_frame hd
      rw [exec_frame (frameInstr_parts _ _)] at h
      exact .inl ⟨_, _, hp, h⟩
    · cases h; exact .inr (.inr (.inl ⟨by simp [rxWant, hp, Phase.receives], rfl⟩))
  · split at h
    · rename_i hp
      split at h
      · rename_i hd
        simp only [decode] at hd
        split at hd <;> try (simp at hd; done)
        rename_i hdd
        simp only [Decoded.instr.injEq] at hd
        subst hd
        obtain ⟨c, f, rfl, -, -⟩ := decodeFrame_eq_frame hdd
        rw [exec_frame (frameInstr_parts _ _)] at h
        exact .inr (.inl ⟨_, h⟩)
      · cases h; exact .inr (.inr (.inr ⟨by simp [txValid, hp, Phase.sends], rfl⟩))
    · split at h
      · cases h; rename_i hw; exact .inr (.inr (.inl ⟨hw, rfl⟩))
      · split at h
        · cases h; rename_i hw; exact .inr (.inr (.inr ⟨hw, rfl⟩))
        · simp at h

/-- A host read writes `readout` and the counter of free values, nothing else. -/
theorem readValue_cases (r : HostReg) (s : State) : ∃ v n, readValue r s = { s with readout := v, draws := n } := by
  unfold readValue
  split
  · exact ⟨_, s.draws, rfl⟩
  · exact ⟨_, s.draws + 1, rfl⟩

/-- A host read that has a move. -/
theorem hostRead_cases {r : HostReg} {s t : State} (h : hostRead r s = .next t) : t = readValue r s := by
  unfold hostRead at h
  (repeat' split at h) <;> first | (cases h; rfl) | cases h

/-- A host write that has a move. -/
theorem hostWrite_cases {i : Nat} {b : Byte} {s t : State} (h : hostWrite i b s = .next t) :
    i < maxPayload ∧ s.phase = .idle ∧ t = { s with txbuf := memWrite s.txbuf i b } := by
  unfold hostWrite at h
  split at h
  · cases h
  · split at h <;> cases h
    rename_i h1 h2
    exact ⟨by omega, by simpa [busy] using h2, rfl⟩

/-- A write that the link gives up. -/
theorem writeFails_cases {s t : State} (h : writeFails s = .next t) : t = reply (.failed .writeFailure) s := by
  unfold writeFails at h
  split at h <;> cases h
  rfl

/-- An `open`: it fails and reports that, or it opens the session. -/
theorem openLink_cases (c : LinkConfig) (fails : Bool) (s : State) : ∃ r x, openLink c fails s = reply r (setSession x s) := by
  unfold openLink
  cases fails
  · exact ⟨_, _, rfl⟩
  · exact ⟨_, s.session, rfl⟩

/-- The request of a transaction up to the accepted ENCODE: the host's side, `rxck` and LINK_TX are as they were. -/
theorem beginRequest_leaves (c : Byte) (p : List Byte) (s : State) :
    (beginRequest c p s).linkTx = s.linkTx ∧ (beginRequest c p s).linkRx = [] ∧
    (beginRequest c p s).session = s.session ∧ (beginRequest c p s).inputs = s.inputs ∧
    (beginRequest c p s).rxbuf = s.rxbuf ∧ (beginRequest c p s).readout = s.readout := by
  unfold beginRequest acceptEncode
  (repeat' split) <;> exact ⟨rfl, rfl, rfl, rfl, rfl, rfl⟩

/-- The request of a transaction whose payload fits: its ENCODE has begun. -/
theorem beginRequest_of_fits {c : Byte} {p : List Byte} (s : State) (h : p.length ≤ maxPayload) :
    beginRequest c p s = beginEncode c p.length { s with linkRx := [], txbuf := memLoad s.txbuf 0 p } := by
  unfold beginRequest acceptEncode
  rw [if_neg (by omega), if_pos h]
  rfl

/-- A transaction that has a move: on a closed session it only reports; on an open one, in an idle block, its request is
begun and then the write fails, or the request is sent and a response is taken, or the payload does not fit. -/
theorem transceive_cases {c : Byte} {p : List Byte} {cut : Option Nat} {resp : List Byte} {s t : State}
    (h : transceive c p cut resp s = .next t) :
    (s.session = .closed ∧ t = { s with bridge := some (.failed .notConnected) }) ∨
    (s.session ≠ .closed ∧ s.phase = .idle ∧
      ((∃ n, t = failWrite n (beginRequest c p s)) ∨
       t = takeResponse resp (reply .ok (txRun (p.length + 6) (beginRequest c p s))) ∨
       t = { beginRequest c p s with bridge := some (bridgeOf (beginRequest c p s)) })) := by
  unfold transceive at h
  split at h
  · rename_i hs; cases h; exact .inl ⟨hs, rfl⟩
  · rename_i k hs
    split at h
    · cases h
    · rename_i hb
      refine .inr ⟨by simp [hs], by simpa [busy] using hb, ?_⟩
      simp only at h
      split at h
      · split at h <;> cases h
        · exact .inl ⟨_, rfl⟩
        · exact .inr (.inl rfl)
      · cases h; exact .inr (.inr rfl)

/-- A facade's operation that has a move is its transaction and the verdict on it. -/
theorem call_cases {q : Request} {cut : Option Nat} {resp : List Byte} {s t : State} (h : call q cut resp s = .next t) :
    ∃ u, transceive q.facade.command q.payload cut resp s = .next u ∧ t = verdict q.facade u := by
  unfold call at h
  split at h <;> cases h
  exact ⟨_, ‹_›, rfl⟩

end Sys2Proof.Machine
end

