-- ==== Sys2Proof/Laws/PerInstr.lean ====
section
/-! SUPPORT. The statement made of every instruction: its encoding has the fixed bits that spec/opcode_table.json gives
its row. -/

namespace Sys2Proof.Laws.RowBits

open Sys2Proof Sys2Proof.Machine

/-- The word the table's bits are numbered in: the two bits of `op`, or the header word H (R81). -/
def tableWord : Encoding → Nat
  | .start op _ _ => op.toNat
  | .wire (a :: b :: c :: d :: _) => a.toNat * 2 ^ 24 + b.toNat * 2 ^ 16 + c.toNat * 2 ^ 8 + d.toNat
  | .wire _ => 0

/-- The row's "fixed" bits: the lowest bit's number, how many there are, their value. -/
def fixedBits : Instr → Nat × Nat × Nat
  | .ckinit => (0, 2, 0)
  | .ckupd _ => (0, 2, 1)
  | .encode _ _ => (0, 2, 2)
  | .decode => (0, 2, 3)
  | .frameSys _ _ => (20, 12, 2720)
  | .frameEth _ _ => (20, 12, 2721)
  | .frameUdp _ _ => (20, 12, 2722)
  | .frameTcp _ _ => (20, 12, 2723)
  | .frameRtc _ _ => (20, 12, 2724)
  | .frameI2c _ _ => (20, 12, 2725)
  | .frameUnassigned6 _ _ => (21, 11, 1363)
  | .frameUnassigned8 _ _ => (23, 9, 341)
  | .framePing _ _ => (0, 32, 2852126720)

/-- The encoding's word has the row's fixed bits. -/
def Statement (i : Instr) : Prop :=
  tableWord (Sys2Proof.encode i) / 2 ^ (fixedBits i).1 % 2 ^ (fixedBits i).2.1 = (fixedBits i).2.2

/-- The table word of a frame. -/
theorem tableWord_bodyBytes (c : Byte) (f : Body) :
    ∃ n < 2 ^ 16, tableWord (.wire (bodyBytes c f)) = 0xAA * 2 ^ 24 + c.toNat * 2 ^ 16 + n := by
  refine ⟨(hi8 (lenOf f.payload)).toNat * 2 ^ 8 + (lo8 (lenOf f.payload)).toNat, ?_, ?_⟩
  · have := (hi8 (lenOf f.payload)).isLt
    have := (lo8 (lenOf f.payload)).isLt
    omega
  · simp only [bodyBytes, wire, tableWord, List.cons_append, sof]
    have : (0xAA#8).toNat = 0xAA := rfl
    omega

theorem nibble_toNat : ∀ k c : BitVec 4, (nibbleCommand k c).toNat = 16 * k.toNat + c.toNat := by decide

theorem unassigned6_toNat : ∀ c : BitVec 5, (3#3 ++ c : BitVec 8).toNat = 96 + c.toNat := by decide

theorem unassigned8_toNat : ∀ c : BitVec 7, (1#1 ++ c : BitVec 8).toNat = 128 + c.toNat := by decide

/-- A nibble class's word has its sentinel and its nibble in the top twelve bits. -/
theorem nibble_bits (k c : BitVec 4) (f : Body) :
    tableWord (.wire (bodyBytes (nibbleCommand k c) f)) / 2 ^ 20 % 2 ^ 12 = 2720 + k.toNat := by
  obtain ⟨n, hn, h⟩ := tableWord_bodyBytes (nibbleCommand k c) f
  have := k.isLt
  have := c.isLt
  rw [h, nibble_toNat]
  omega

theorem ckinit : Statement .ckinit := rfl

theorem ckupd (a : Byte) : Statement (.ckupd a) := by
  simp [Statement, tableWord, fixedBits, Sys2Proof.encode]

theorem encode (a : Byte) (plen : Nat) : Statement (.encode a plen) := by
  simp [Statement, tableWord, fixedBits, Sys2Proof.encode]

theorem decode : Statement .decode := rfl

theorem frameSys (c : BitVec 4) (f : Body) : Statement (.frameSys c f) := nibble_bits 0#4 c f

theorem frameEth (c : BitVec 4) (f : Body) : Statement (.frameEth c f) := nibble_bits 1#4 c f

theorem frameUdp (c : BitVec 4) (f : Body) : Statement (.frameUdp c f) := nibble_bits 2#4 c f

theorem frameTcp (c : BitVec 4) (f : Body) : Statement (.frameTcp c f) := nibble_bits 3#4 c f

theorem frameRtc (c : BitVec 4) (f : Body) : Statement (.frameRtc c f) := nibble_bits 4#4 c f

theorem frameI2c (c : BitVec 4) (f : Body) : Statement (.frameI2c c f) := nibble_bits 5#4 c f

theorem frameUnassigned6 (c : BitVec 5) (f : Body) : Statement (.frameUnassigned6 c f) := by
  obtain ⟨n, hn, h⟩ := tableWord_bodyBytes (3#3 ++ c) f
  have := c.isLt
  simp only [Statement, Sys2Proof.encode, fixedBits, h, unassigned6_toNat]
  omega

theorem frameUnassigned8 (c : BitVec 7) (f : Body) : Statement (.frameUnassigned8 c f) := by
  obtain ⟨n, hn, h⟩ := tableWord_bodyBytes (1#1 ++ c) f
  have := c.isLt
  simp only [Statement, Sys2Proof.encode, fixedBits, h, unassigned8_toNat]
  omega

theorem framePing (ck stop : Byte) : Statement (.framePing ck stop) := by
  simp [Statement, fixedBits, Sys2Proof.encode, bodyBytes, wire, tableWord, lenOf, sof, hi8, lo8]

end Sys2Proof.Laws.RowBits
end

