-- ==== Sys2Proof/Tests/Slice0.lean ====
section
/-! SUPPORT. The model's own tests. Expected values are the spec's: the words of 30_encoding.md, the table of R113, the
vectors of 95_test_vectors.md. Each obligation with hypotheses has a theorem here that shows a state and operands that
meet all of them: `test_met_<obligation>`. -/

open Sys2Proof Sys2Proof.Machine

namespace Sys2Proof.Tests

-- Many small evaluations at once would start more threads than the memory limit of the checks allows.
set_option Elab.async false

/-- The state after reset in another phase, with events that wait to be offered. -/
def inPhase (p : Phase) (es : List Input) : State := { State.reset with phase := p, inputs := es }

/-- An ENCODE of the command 0x10 that has been accepted, with 01 02 03 in TXBUF (V-E3). -/
def sending (es : List Input) : State :=
  { State.reset with phase := .eSof, cmd := 0x10, len := 3, acc := 0xFF, txbuf := [(0, 1), (1, 2), (2, 3)], inputs := es }

/-- An idle block on an open link. -/
def onOpenLink (es : List Input) : State := { inPhase .idle es with session := .opened ⟨0, 115200, false⟩ }

/-- What a step or an instruction gives, read by a test; nothing where it gives no next state. -/
def got {α : Type} (f : State → α) (o : Host.Outcome State Fault Refusal) : Option α :=
  match o with
  | .next t => some (f t)
  | .fault _ => none
  | .refused _ => none

-- WellFormed refuses each kind of ill-formed instruction

theorem test_illformed_payload_too_long :
    Instr.WellFormed (.frameSys 1 ⟨List.replicate 65536 0, checksum (List.replicate 65536 0), 0x55⟩) = false := by
  have h : ∀ ck stop, payloadFits (.frameSys 1 ⟨List.replicate 65536 0, ck, stop⟩) = false := fun ck stop => by
    rw [payloadFits, List.length_replicate]; rfl
  rw [Instr.WellFormed, Instr.Encodable, h, Bool.false_and, Bool.false_and, Bool.false_and]

theorem test_illformed_ping_as_sys : Instr.WellFormed (.frameSys 0 ⟨[], 0xFF, 0x55⟩) = false := by decide

theorem test_illformed_checksum : Instr.WellFormed (.frameSys 1 ⟨[0], 0xAD, 0x55⟩) = false := by decide

theorem test_illformed_end : Instr.WellFormed (.frameSys 1 ⟨[0], 0xAC, 0x54⟩) = false := by decide

theorem test_wellformed : Instr.WellFormed (.frameSys 1 ⟨[0], 0xAC, 0x55⟩) = true := by decide

-- Decode, on words written out from R95 (two bits) and from the patterns of R81 and R98 (the header word)

theorem test_decode_ckinit : decodeTableWord 8 0b00 = some .ckinit := by decide
theorem test_decode_ckupd : decodeTableWord 8 0b01 = some (.ckupd 0) := by decide
theorem test_decode_encode : decodeTableWord 8 0b10 = some (.encode 0 0) := by decide
theorem test_decode_decode : decodeTableWord 8 0b11 = some .decode := by decide
theorem test_decode_sys : decodeTableWord 32 0b10101010_0000_0001_00000000_00000000 =
    some (.frameSys 1 ⟨[], 0, 0⟩) := by decide
theorem test_decode_sys_with_payload : decodeTableWord 32 0b10101010_0000_0000_00000000_00000001 =
    some (.frameSys 0 ⟨[0], 0, 0⟩) := by decide
theorem test_decode_eth : decodeTableWord 32 0b10101010_0001_0010_00000000_00000000 =
    some (.frameEth 2 ⟨[], 0, 0⟩) := by decide
theorem test_decode_udp : decodeTableWord 32 0b10101010_0010_0011_00000000_00000000 =
    some (.frameUdp 3 ⟨[], 0, 0⟩) := by decide
theorem test_decode_tcp : decodeTableWord 32 0b10101010_0011_0100_00000000_00000000 =
    some (.frameTcp 4 ⟨[], 0, 0⟩) := by decide
theorem test_decode_rtc : decodeTableWord 32 0b10101010_0100_1111_00000000_00000010 =
    some (.frameRtc 15 ⟨[0, 0], 0, 0⟩) := by decide
theorem test_decode_i2c : decodeTableWord 32 0b10101010_0101_1000_00000000_00000000 =
    some (.frameI2c 8 ⟨[], 0, 0⟩) := by decide
theorem test_decode_unassigned6 : decodeTableWord 32 0b10101010_011_10001_00000000_00000000 =
    some (.frameUnassigned6 17 ⟨[], 0, 0⟩) := by decide
theorem test_decode_unassigned8 : decodeTableWord 32 0b10101010_1_0000001_00000000_00000000 =
    some (.frameUnassigned8 1 ⟨[], 0, 0⟩) := by decide
theorem test_decode_ping : decodeTableWord 32 0b10101010_00000000_00000000_00000000 =
    some (.framePing 0 0) := by decide
theorem test_decode_other_start : decodeTableWord 32 0x55000000 = none := by decide
theorem test_decode_truncated : decode (.wire [0xAA, 0x00, 0x00, 0x01, 0xFF, 0x55]) = .rejected .truncated := by decide

/-- A table word runs as the first instruction after reset. -/
theorem test_fetch_op : step (State.reset.withFetchWord 8 0b00) = exec .ckinit State.reset := rfl

/-- So does a header word; the frame of zeros it begins has a wrong end byte. -/
theorem test_fetch_frame : got (fun t => (t.done, t.err)) (step (State.reset.withFetchWord 32 0xAA100000)) =
    some (true, .badEndByte) := by decide

-- The checksum unit: the table of R113, sequences of 95_test_vectors.md 2.3, V-C1 to V-C5

/-- The 256 values of R113, one row a line. -/
def tableT : List Byte :=
  [0x00, 0x31, 0x62, 0x53, 0xC4, 0xF5, 0xA6, 0x97, 0xB9, 0x88, 0xDB, 0xEA, 0x7D, 0x4C, 0x1F, 0x2E]
  ++ [0x43, 0x72, 0x21, 0x10, 0x87, 0xB6, 0xE5, 0xD4, 0xFA, 0xCB, 0x98, 0xA9, 0x3E, 0x0F, 0x5C, 0x6D]
  ++ [0x86, 0xB7, 0xE4, 0xD5, 0x42, 0x73, 0x20, 0x11, 0x3F, 0x0E, 0x5D, 0x6C, 0xFB, 0xCA, 0x99, 0xA8]
  ++ [0xC5, 0xF4, 0xA7, 0x96, 0x01, 0x30, 0x63, 0x52, 0x7C, 0x4D, 0x1E, 0x2F, 0xB8, 0x89, 0xDA, 0xEB]
  ++ [0x3D, 0x0C, 0x5F, 0x6E, 0xF9, 0xC8, 0x9B, 0xAA, 0x84, 0xB5, 0xE6, 0xD7, 0x40, 0x71, 0x22, 0x13]
  ++ [0x7E, 0x4F, 0x1C, 0x2D, 0xBA, 0x8B, 0xD8, 0xE9, 0xC7, 0xF6, 0xA5, 0x94, 0x03, 0x32, 0x61, 0x50]
  ++ [0xBB, 0x8A, 0xD9, 0xE8, 0x7F, 0x4E, 0x1D, 0x2C, 0x02, 0x33, 0x60, 0x51, 0xC6, 0xF7, 0xA4, 0x95]
  ++ [0xF8, 0xC9, 0x9A, 0xAB, 0x3C, 0x0D, 0x5E, 0x6F, 0x41, 0x70, 0x23, 0x12, 0x85, 0xB4, 0xE7, 0xD6]
  ++ [0x7A, 0x4B, 0x18, 0x29, 0xBE, 0x8F, 0xDC, 0xED, 0xC3, 0xF2, 0xA1, 0x90, 0x07, 0x36, 0x65, 0x54]
  ++ [0x39, 0x08, 0x5B, 0x6A, 0xFD, 0xCC, 0x9F, 0xAE, 0x80, 0xB1, 0xE2, 0xD3, 0x44, 0x75, 0x26, 0x17]
  ++ [0xFC, 0xCD, 0x9E, 0xAF, 0x38, 0x09, 0x5A, 0x6B, 0x45, 0x74, 0x27, 0x16, 0x81, 0xB0, 0xE3, 0xD2]
  ++ [0xBF, 0x8E, 0xDD, 0xEC, 0x7B, 0x4A, 0x19, 0x28, 0x06, 0x37, 0x64, 0x55, 0xC2, 0xF3, 0xA0, 0x91]
  ++ [0x47, 0x76, 0x25, 0x14, 0x83, 0xB2, 0xE1, 0xD0, 0xFE, 0xCF, 0x9C, 0xAD, 0x3A, 0x0B, 0x58, 0x69]
  ++ [0x04, 0x35, 0x66, 0x57, 0xC0, 0xF1, 0xA2, 0x93, 0xBD, 0x8C, 0xDF, 0xEE, 0x79, 0x48, 0x1B, 0x2A]
  ++ [0xC1, 0xF0, 0xA3, 0x92, 0x05, 0x34, 0x67, 0x56, 0x78, 0x49, 0x1A, 0x2B, 0xBC, 0x8D, 0xDE, 0xEF]
  ++ [0x82, 0xB3, 0xE0, 0xD1, 0x46, 0x77, 0x24, 0x15, 0x3B, 0x0A, 0x59, 0x68, 0xFF, 0xCE, 0x9D, 0xAC]

theorem test_table_low :
    (List.range 128).map (fun x => byteStep 0 (BitVec.ofNat 8 x)) = tableT.take 128 := by decide +kernel
theorem test_table_high :
    (List.range 128).map (fun x => byteStep 0 (BitVec.ofNat 8 (128 + x))) = tableT.drop 128 := by decide +kernel
theorem test_checksum_digits : checksum [0x31, 0x32, 0x33, 0x34, 0x35, 0x36, 0x37, 0x38, 0x39] = 0xF7 := by decide +kernel
theorem test_checksum_udp : checksum [0x01, 0xC0, 0xA8, 0x01, 0x0A, 0x06, 0xA4, 0x68, 0x69] = 0x2C := by decide +kernel

/-- V-C1. -/
theorem test_ckinit : got (fun t => (t.acc, t.done, t.err, t.known.acc)) (exec .ckinit State.reset) =
    some (0xFF, true, .none, true) := by decide

/-- V-C3. -/
theorem test_ckupd : got (fun t => (t.acc, t.done)) (exec (.ckupd 0)
    { State.reset with acc := 0xFF, known := { Known.nothing with acc := true } }) = some (0xAC, true) := by decide

/-- V-C6: no value in, no value out. -/
theorem test_ckupd_without_value : got (fun t => t.known.acc) (exec (.ckupd 0x12) State.reset) = some false := by decide

-- The encoder: V-E1, V-E3, V-E10 and the trace of V-E3

theorem test_ping_is_the_documents : got (fun t => t.linkTx) (steps 7 { State.reset with inputs := pingInputs }) =
    some [0xAA, 0x00, 0x00, 0x00, 0xFF, 0x55] := by decide
theorem test_encode_too_large : got (fun t => (t.err, t.linkTx, t.phase)) (exec (.encode 0 65536) State.reset) =
    some (.payloadTooLarge, [], .idle) := by decide
theorem test_encode_largest : got (fun t => (t.len, t.phase)) (exec (.encode 0x30 65535) State.reset) =
    some (0xFFFF, .eSof) := by decide
theorem test_encode_trace_step6 : got (fun t => (t.linkTx, t.idx, t.acc, t.phase))
    (step { sending [.txAccept] with phase := .ePay, idx := 1, acc := 0x9D }) = some ([2], 2, 0x17, .ePay) := by decide
theorem test_frame_is_sent : got (fun t => t.linkTx) (step (sending [.transfer])) =
    some [0xAA, 0x10, 0x00, 0x03, 0x01, 0x02, 0x03, 0x87, 0x55] := by decide +kernel

-- The decoder: V-D9, V-D12, V-D18, V-D21, V-D23, V-D26 and the trace of V-D22

theorem test_decode_ping_frame : decodeA [0xAA, 0, 0, 0, 0xFF, 0x55] = (.ok 0 [], 6) := by decide
theorem test_decode_both_wrong : decodeA [0xAA, 0, 0, 0, 0xFE, 0x54] = (.error .badEndByte, 6) := by decide
theorem test_decode_shorter_length :
    decodeA [0xAA, 0x10, 0, 2, 1, 2, 3, 0x87, 0x55] = (.error .badEndByte, 8) := by decide
theorem test_decode_shifted : decodeA [0xAA, 0, 0, 0, 0x55, 0xAA] = (.error .badEndByte, 6) := by decide
theorem test_decode_declares_256 : decodeA [0xAA, 0, 1, 0, 0, 0xDE, 0xAD] = (.error .truncated, 7) := by decide
theorem test_decode_footer_cut : decodeA [0xAA, 0, 0, 0, 0xFE] = (.error .truncated, 5) := by decide
theorem test_decode_trace_step6 : got (fun t => (t.rxbuf, t.acc, t.idx, t.phase, t.linkRx))
    (step { inPhase .dPay [.rx] with acc := 0xAC, len := 5, idx := 1, rxbuf := [(0, 0)], linkRx := [0xDE, 0xAD] }) =
    some ([(0, 0x00), (1, 0xDE)], 0x9A, 2, .dPay, [0xAD]) := by decide
theorem test_decode_accepts : got (fun t => (t.phase, t.done, t.linkRx)) (exec .decode
    { State.reset with done := true, linkRx := [0xAA] }) = some (.dSof, false, [0xAA]) := by decide

-- The frame classes, received: V-D20, V-D24, the frames of R142, and V-X7

theorem test_receive_sys : got (fun t => (t.cmd, t.rxbuf, t.err))
    (exec (.frameSys 7 ⟨[0x44], 0x55, 0x55⟩) (inPhase .dSof [])) = some (0x07, [(0, 0x44)], .none) := by decide
theorem test_receive_eth : got (fun t => (t.cmd, t.len, t.err))
    (exec (.frameEth 1 ⟨[1, 2, 3], 0x87, 0x55⟩) (inPhase .dSof [])) = some (0x11, 3, .none) := by decide +kernel
theorem test_receive_udp : got (fun t => (t.cmd, t.rxbuf, t.err))
    (exec (.frameUdp 1 ⟨[0, 0], 0x81, 0x55⟩) (inPhase .dSof [])) = some (0x21, [(0, 0), (1, 0)], .none) := by decide +kernel
theorem test_receive_tcp : got (fun t => (t.cmd, t.acc, t.err))
    (exec (.frameTcp 0 ⟨[0], 0xAC, 0x55⟩) (inPhase .dSof [])) = some (0x30, 0xAC, .none) := by decide
theorem test_receive_rtc : got (fun t => (t.cmd, t.err, t.known))
    (exec (.frameRtc 2 ⟨[0], 0xAD, 0x55⟩) (inPhase .dSof [])) = some (0x42, .checksumMismatch, Known.nothing) := by decide
theorem test_receive_i2c : got (fun t => (t.cmd, t.len, t.err))
    (exec (.frameI2c 15 ⟨[0xAA, 0x55, 0xAA, 0x55], 0xEE, 0x55⟩) (inPhase .dSof [])) = some (0x5F, 4, .none) := by decide +kernel
theorem test_receive_unassigned6 : got (fun t => (t.cmd, t.err))
    (exec (.frameUnassigned6 31 ⟨[], 0xFF, 0x55⟩) (inPhase .dSof [])) = some (0x7F, .none) := by decide
theorem test_receive_unassigned8 : got (fun t => (t.cmd, t.rxbuf, t.err))
    (exec (.frameUnassigned8 127 ⟨[0xFF], 0x00, 0x55⟩) (inPhase .dSof [])) = some (0xFF, [(0, 0xFF)], .none) := by decide
theorem test_receive_ping : got (fun t => (t.cmd, t.len, t.err))
    (exec (.framePing 0xFF 0x54) (inPhase .dSof [])) = some (0x00, 0, .badEndByte) := by decide
theorem test_frame_waits_while_idle : got (fun t => (t.phase, t.linkRx))
    (exec (.framePing 0xFF 0x55) State.reset) = some (.idle, [0xAA, 0, 0, 0, 0xFF, 0x55]) := by decide

-- What has no move, reset, the host: V-X4, V-X5, V-X6, V-X7

theorem test_reset_while_decoding : got (fun t => (t.phase, t.done, t.rxbuf, t.linkRx))
    (step { inPhase .dPay [.reset] with rxbuf := [(0, 1)], linkRx := [2] }) = some (.idle, false, [], [2]) := by decide
theorem test_reset_while_sending : got (fun t => (t.phase, t.linkTx))
    (step { inPhase .ePay [.reset] with linkTx := [0xAA, 0x10, 0, 3, 1] }) =
    some (.idle, [0xAA, 0x10, 0, 3, 1]) := by decide
theorem test_start_while_busy : step (inPhase .dCmd [.start 0 0 0]) = .refused .startWhileBusy := rfl
theorem test_rx_while_idle : step { inPhase .idle [.rx] with linkRx := [0xAA] } = .refused .rxNotWanted :=
  rfl
theorem test_last_index_exists : got (fun t => t.txbuf) (step (inPhase .idle [.hostWrite 65534 7])) =
    some [(65534, 7)] := by decide
theorem test_index_65535_does_not_exist :
    step (inPhase .idle [.hostWrite 65535 7]) = .fault .bufferIndexOutOfRange := rfl
theorem test_transaction : got (fun t => (t.linkTx, t.bridge, t.linkRx))
    (step { inPhase .idle [.transceive 0 [] none [0xAA, 0, 0, 1, 0, 0xAC, 0x55, 9]] with
      session := .opened ⟨0, 115200, false⟩, linkRx := [1, 2] }) =
    some ([0xAA, 0, 0, 0, 0xFF, 0x55], some (.payload [0]), [9]) := by decide
theorem test_facade_short_payload : Facade.judge .getVersion (.payload [0, 1, 2]) = .operationFailed := by decide
theorem test_facade_other_status : Facade.judge .tcpConnect (.payload [5]) = .operationFailed := by decide

/-- Source port 0x1234 and length 0x0102 are big-endian, and the data is what follows. -/
theorem test_facade_accepts : Facade.judge .udpReceive (.payload [0, 192, 168, 1, 10, 0x12, 0x34, 0x01, 0x02, 0x68]) =
    .accepted (.udpReceive ⟨192, 168, 1, 10⟩ 0x1234 0x0102 [0x68]) := by decide

/-- The payload of V-E4: socket 1, address 192.168.1.10, port 1700, data 68 69. -/
theorem test_udp_send_layout : Request.payload (.udpSend 1 ⟨192, 168, 1, 10⟩ 1700 [0x68, 0x69]) =
    [0x01, 0xC0, 0xA8, 0x01, 0x0A, 0x06, 0xA4, 0x68, 0x69] := by decide

/-- A scan that counts one address holds one, whatever follows it; one that counts none holds none. -/
theorem test_scan_counts : Facade.parse .i2cScan [0x01, 0x3C, 0xFF] = some (.i2cScan 1 [0x3C]) ∧
    Facade.parse .i2cScan [0x00, 0x3C] = some (.i2cScan 0 []) := by decide

/-- NotConnected comes first, even from a host whose block is busy (R199 step 1, R200). -/
theorem test_closed_before_busy : got (fun t => (t.bridge, t.phase))
    (step (inPhase .dPay [.transceive 0 [] none []])) = some (some (.failed .notConnected), .dPay) := by decide
theorem test_open_fails : got (fun t => (t.session, t.linkReply)) (step (inPhase .idle [.openLink ⟨0, 9600, true⟩ true])) =
    some (.closed, some (.failed .openFailure)) := by decide
theorem test_decode_on_closed_link : step (inPhase .idle [.start 3 0 0]) = .refused .decodeOnClosedLink := rfl

-- The hypotheses of each obligation can be met

theorem test_met_reset : (inPhase .dPay [.reset]).inputs = [.reset] := by decide
theorem test_met_hold : State.reset.inputs = [] := by decide
theorem test_met_results_stay :
    (inPhase .idle [.arrive 1]).phase = .idle ∧ Input.isStart (.arrive 1) = false ∧ Input.arrive 1 ≠ .reset ∧
    Input.isTransceive (.arrive 1) = false ∧
    step (inPhase .idle [.arrive 1]) = .next { inPhase .idle [] with linkRx := [1] } :=
  ⟨by decide, by decide, by decide, by decide, rfl⟩
theorem test_met_ckupd : State.reset.phase = .idle ∧ State.reset.known.acc = false ∧
    { State.reset with known := Known.everything }.phase = .idle ∧
    { State.reset with known := Known.everything }.known.acc = true := by decide
theorem test_met_compute : (inPhase .idle (computeInputs [0x31, 0x32])).phase = .idle ∧
    (inPhase .idle (computeInputs [0x31, 0x32])).inputs =
      [.start 0 0 0, .start 1 0x31 0, .start 1 0x32 0] ++ [] := by decide
theorem test_met_changed_byte : (3 : Byte) ≠ 4 := by decide
theorem test_met_affine : ([0x00, 0x00] : List Byte).length = ([0x01, 0x31] : List Byte).length := by decide
theorem test_met_decode_undoes_encode : Instr.Encodable (.encode 0xFF 70000) = true ∧
    Instr.Encodable (.frameSys 0 ⟨[0], 1, 2⟩) = true ∧ Instr.Encodable (.framePing 1 2) = true := by decide
theorem test_met_encode_undoes_decode : decode (.start 2 5 7) = .instr (.encode 5 7) ∧
    decode (.wire [0xAA, 0x60, 0, 0, 1, 2]) = .instr (.frameUnassigned6 0 ⟨[], 1, 2⟩) := by decide
theorem test_met_prefix : frame 7 [0x44] <+: frame 7 [0x44] := List.prefix_refl _
theorem test_met_encode_accepts : State.reset.phase = .idle ∧ ¬ (65535 > 65535) ∧ 65536 > 65535 := by decide
theorem test_met_offered : memRead (sending []).txbuf 2 = some 3 ∧
    { sending [] with phase := .ePay, idx := 2 }.phase = .ePay := by decide

/-- The clauses of both tables on what has no move. -/
theorem test_met_no_move : txValid (inPhase .eSof [.start 0 0 0]) = true ∧ Input.isStart (.start 0 0 0) = true ∧
    rxWant (inPhase .dEof [.txAccept]) = true ∧ txValid (inPhase .eEof [.rxTimeout]) = true := by decide

/-- Each row of R138 at the values where its conditions meet: a length of 0 and of 1, the last payload byte and the one
before it, and the largest length. -/
theorem test_met_tx_rows :
    (∀ p ∈ [Phase.eSof, .eCmd, .eLenh, .eCk, .eEof], (inPhase p [.txAccept]).phase = p) ∧
    (inPhase .eLenl [.txAccept]).len = 0 ∧ { inPhase .eLenl [.txAccept] with len := 1 }.len ≠ 0 ∧
    { inPhase .ePay [.txAccept] with idx := 0xFFFE, len := 0xFFFF }.idx + 1 = (0xFFFF : Half) ∧
    { inPhase .ePay [.txAccept] with idx := 0xFFFD, len := 0xFFFF }.idx + 1 ≠ (0xFFFF : Half) := by decide

theorem test_met_encode_sends : (inPhase .idle (.start 2 7 1 :: (List.replicate 7 .txAccept ++ []))).phase = .idle ∧
    1 ≤ maxPayload ∧ 65535 ≤ maxPayload := by decide

/-- The state after an accepted ENCODE meets the invariant. -/
theorem test_met_inv_sending (es : List Input) : (sending es).phase = .eSof ∧ Inv (sending es) :=
  ⟨rfl, rfl, rfl, rfl, rfl, rfl⟩

theorem test_met_decode_accepts : State.reset.phase = .idle := by decide

/-- Each row of R163: both lengths, both payload rows at the largest length, all three ends. -/
theorem test_met_rx_rows :
    (∀ p ∈ [Phase.dSof, .dCmd, .dLenh, .dLenl, .dPay, .dCk, .dEof],
      { inPhase p [.rx] with linkRx := [0x55] }.phase = p) ∧ (0x55 : Byte) ≠ 0xAA ∧
    ((0x0000 : Half).extractLsb' 8 8 ++ (0x00 : Byte) : BitVec 16) = 0 ∧
    ((0x0100 : Half).extractLsb' 8 8 ++ (0x00 : Byte) : BitVec 16) ≠ 0 ∧
    (0xFFFE : Half) + 1 = 0xFFFF ∧ (0xFFFD : Half) + 1 ≠ 0xFFFF ∧ (0x54 : Byte) ≠ 0x55 ∧
    { inPhase .dEof [.rx] with rxck := 1 }.rxck ≠ (inPhase .dEof [.rx]).acc ∧
    (inPhase .dEof [.rx]).rxck = (inPhase .dEof [.rx]).acc := by decide

theorem test_met_timeout_rows : (inPhase .dSof [.rxTimeout]).phase = .dSof ∧
    (inPhase .dEof [.rxTimeout]).phase ∈ [Phase.dCmd, .dLenh, .dLenl, .dPay, .dCk, .dEof] := by decide

/-- A DECODE answered with a whole frame, and one answered with two bytes and a timeout. -/
theorem test_met_decode_levelA :
    linkAnswers [0xAA, 0, 0, 0, 0xFF, 0x55, 9] = List.replicate 6 .rx ∧
    linkAnswers [0xAA, 0] = [.rx, .rx, .rxTimeout] ∧
    (onOpenLink (.start 3 0 0 :: (linkAnswers [0xAA, 0] ++ []))).phase = .idle ∧
    (onOpenLink (.start 3 0 0 :: (linkAnswers [0xAA, 0] ++ []))).session ≠ .closed := by decide
theorem test_met_transfer_decode : (inPhase .dSof [.transfer]).phase = .dSof := by decide

/-- Each result of R165. -/
theorem test_met_consumed : decodeA [] = (.error .timeout, 0) ∧ decodeA [0, 1] = (.error .badStartByte, 1) ∧
    decodeA [0xAA] = (.error .truncated, 1) ∧ decodeA [0xAA, 0, 0, 0] = (.error .truncated, 4) ∧
    decodeA [0xAA, 0, 0, 0, 0xFF, 0x54] = (.error .badEndByte, 6) ∧
    decodeA [0xAA, 0, 0, 0, 0xFE, 0x55] = (.error .checksumMismatch, 6) ∧
    decodeA [0xAA, 0, 0, 0, 0xFF, 0x55] = (.ok 0 [], 6) := by decide

theorem test_met_payload_bound : ([] : List Byte).length ≤ maxPayload ∧
    (List.replicate 65535 (0 : Byte)).length ≤ maxPayload := by
  exact ⟨by decide, by rw [List.length_replicate]; decide⟩

/-- The empty prefix, the first byte, and all but the last byte of a frame. -/
theorem test_met_proper_prefix : ([] : List Byte) <+: frame 0 [] ∧ ([] : List Byte) ≠ frame 0 [] ∧
    [0xAA] <+: frame 0 [] ∧ [0xAA] ≠ frame 0 [] ∧
    [0xAA, 0, 0, 0, 0xFF] <+: frame 0 [] ∧ [0xAA, 0, 0, 0, 0xFF] ≠ frame 0 [] := by decide +kernel

theorem test_met_corrupted : (0x55 : Byte) ≠ 0xAA ∧ ([1, 2, 3] : List Byte) = [1, 2] ++ 3 :: [] ∧ (3 : Byte) ≠ 4 ∧
    (0x86 : Byte) ≠ checksum [1, 2, 3] ∧ (0xAA : Byte) ≠ 0x55 := by decide +kernel

/-- One well-formed frame of each class. -/
theorem test_met_frame_received : (inPhase .dSof []).phase = .dSof ∧
    ∀ i ∈ [Instr.frameSys 7 ⟨[0x44], 0x55, 0x55⟩, .frameEth 0 ⟨[1, 2, 3], 0x87, 0x55⟩, .frameUdp 1 ⟨[0, 0], 0x81, 0x55⟩,
      .frameTcp 0 ⟨[0], 0xAC, 0x55⟩, .frameRtc 2 ⟨[0], 0xAC, 0x55⟩, .frameI2c 15 ⟨[], 0xFF, 0x55⟩,
      .frameUnassigned6 0 ⟨[], 0xFF, 0x55⟩, .frameUnassigned8 127 ⟨[0xFF], 0, 0x55⟩, .framePing 0xFF 0x55],
      i.WellFormed = true ∧ i.frameParts.isSome = true := by decide +kernel

theorem test_met_frame_rejected :
    Instr.frameParts (.framePing 0xFE 0x54) = some (0x00, ⟨[], 0xFE, 0x54⟩) ∧ (0x54 : Byte) ≠ 0x55 ∧
    Instr.Encodable (.framePing 0xFE 0x55) = true ∧ (0xFE : Byte) ≠ checksum [] := by decide

/-- The frame of V-E3 and the ENCODE that sends it. -/
theorem test_met_frame_sent : Instr.frameParts (.frameEth 0 ⟨[1, 2, 3], 0x87, 0x55⟩) = some (0x10, ⟨[1, 2, 3], 0x87, 0x55⟩) ∧
    Instr.WellFormed (.frameEth 0 ⟨[1, 2, 3], 0x87, 0x55⟩) = true ∧ (sending []).phase = .eSof ∧
    (sending []).cmd = 0x10 ∧ (sending []).len.toNat = 3 ∧ memHolds (sending []).txbuf [1, 2, 3] := by decide +kernel

/-- A frame that waits: in an idle block, and in one that is about to send another frame. -/
theorem test_met_frame_waits : rxWant State.reset = false ∧ rxWant (sending []) = false ∧
    offeredBytes (sending []) ≠ bodyBytes 0x00 ⟨[], 0xFF, 0x55⟩ := by decide

theorem test_met_frame_leaves : got (fun t => t.phase) (exec (.framePing 0xFF 0x55) (inPhase .dSof [])) = some .idle ∧
    txValid (inPhase .dSof []) = false ∧ rxWant State.reset = false := by decide

theorem test_met_operations_leave : Instr.frameParts .decode = none ∧
    exec .decode State.reset = .next (inPhase .dSof []) ∧ Instr.frameParts .ckinit = none ∧
    got (fun t => t.acc) (exec .ckinit State.reset) = some 0xFF :=
  ⟨by decide, rfl, by decide, by decide⟩

theorem test_met_start_while_busy : (inPhase .eEof [.start 3 0 0]).phase ≠ .idle := by decide
theorem test_met_no_flag : txValid (inPhase .dSof [.txAccept]) = false ∧ rxWant (inPhase .eSof [.rx]) = false ∧
    rxWant (inPhase .idle [.rxTimeout]) = false := by decide

theorem test_met_linkTx_grows : step (inPhase .idle [.arrive 1]) = .next { inPhase .idle [] with linkRx := [1] } ∧
    ∀ e ∈ (inPhase .idle [.arrive 1]).inputs.head?, e ≠ .txAccept ∧ e ≠ .transfer ∧ e.isTransceive = false :=
  ⟨rfl, by decide⟩

theorem test_met_buffers : step (inPhase .idle [.discard]) = .next (inPhase .idle []) ∧ Input.discard ≠ .reset ∧
    Input.discard.isTransceive = false ∧ Input.discard.isHostWrite = false ∧ Input.discard ≠ .rx ∧
    Input.discard ≠ .rxTimeout ∧ Input.discard ≠ .transfer :=
  ⟨rfl, by decide, by decide, by decide, by decide, by decide, by decide⟩

theorem test_met_inv_step : Inv (sending [.txAccept]) ∧
    step (sending [.txAccept]) = .next { sending [] with phase := .eCmd, linkTx := [0xAA] } :=
  ⟨(test_met_inv_sending _).2, rfl⟩

theorem test_met_started : (inPhase .idle [.start 1 5 0]).inputs = [.start 1 5 0] ∧
    decode (.start 1 5 0) = .instr (.ckupd 5) ∧ (1#2 : BitVec 2) ≠ 3#2 ∧ decode (.start 3 0 0) = .instr .decode ∧
    (onOpenLink [.start 3 0 0]).session ≠ .closed := by decide

theorem test_met_fetched : { inPhase .dSof [.transfer] with linkRx := [0xAA, 0, 0, 0, 0xFF, 0x55, 9] }.phase = .dSof ∧
    decode (.wire [0xAA, 0, 0, 0, 0xFF, 0x55]) = .instr (.framePing 0xFF 0x55) := by decide

/-- The three clauses of a host write: the last index, the first that does not exist, a busy block. -/
theorem test_met_host_write : (65534 : Nat) < 65535 ∧ (inPhase .idle [.hostWrite 65534 7]).phase = .idle ∧
    (65535 : Nat) ≤ 65535 ∧ (inPhase .dSof [.hostWrite 0 7]).phase ≠ .idle := by decide

/-- The clauses of a host read: a value is held, none is, the block is busy, the last index and the first that does not
exist, an index during a DECODE. -/
theorem test_met_host_read : heldValue .done (inPhase .idle [.hostRead .done]) = some 0 ∧
    heldValue .acc (inPhase .idle [.hostRead .acc]) = none ∧ (inPhase .eSof [.hostRead .acc]).phase ≠ .idle ∧
    heldValue (.rxbuf 65534) { inPhase .idle [] with rxbuf := [(65534, 7)] } = some 7 ∧
    (65534 : Nat) < 65535 ∧ rxWant (inPhase .idle [.hostRead (.rxbuf 65534)]) = false ∧ (65535 : Nat) ≤ 65535 ∧
    rxWant (inPhase .dPay [.hostRead (.rxbuf 0)]) = true := by decide

theorem test_met_queue : (inPhase .dPay [.arrive 1]).inputs = [.arrive 1] ∧
    (inPhase .idle [.discard]).inputs = [.discard] := by decide

theorem test_met_session : (inPhase .idle [.openLink ⟨1, 9600, true⟩ false]).inputs = [.openLink ⟨1, 9600, true⟩ false] ∧
    (inPhase .dPay [.openLink ⟨1, 9600, true⟩ true]).inputs = [.openLink ⟨1, 9600, true⟩ true] ∧
    (inPhase .idle [.closeLink]).inputs = [.closeLink] ∧
    (inPhase .dSof [.linkFails .readFailure]).inputs = [.linkFails .readFailure] ∧ Input.discard.isSession = false ∧
    step (inPhase .idle [.discard]) = .next (inPhase .idle []) :=
  ⟨by decide, by decide, by decide, by decide, by decide, rfl⟩

theorem test_met_closed : (inPhase .dPay [.transceive 0 [] none []]).session = .closed ∧
    (inPhase .idle [.call .ping none []]).session = .closed ∧ (inPhase .idle [.start 3 0 0]).session = .closed ∧
    (inPhase .idle [.start 3 0 0]).phase = .idle := by decide

theorem test_met_transaction : (onOpenLink [.transceive 0 [] none []]).phase = .idle ∧
    (onOpenLink [.transceive 0 [] none []]).session ≠ .closed ∧ ([] : List Byte).length ≤ maxPayload ∧
    (onOpenLink [.call (.udpReceive 0 2) none []]).session ≠ .closed ∧
    (Request.payload (.udpReceive 0 2)).length ≤ maxPayload := by decide

theorem test_met_transaction_while_busy : { onOpenLink [.call .ping none []] with phase := .eSof }.phase ≠ .idle ∧
    { onOpenLink [.call .ping none []] with phase := .eSof }.session ≠ .closed ∧
    Input.isTransceive (.call .ping none []) = true ∧ Input.isTransceive (.transceive 0 [] none []) = true := by decide

/-- A response of the table at both ends of a count, and one whose count is one too many. -/
theorem test_met_layouts : (Response.i2cScan 0 []).followsTable = true ∧
    (Response.i2cScan 2 [0x3C, 0x68]).followsTable = true ∧ (Response.i2cScan 2 []).facade ≠ .udpReceive ∧
    ([0x3C] : List Byte).length < (2 : Byte).toNat ∧ ([] : List Byte).length < (1 : Byte).toNat := by decide

/-- Every count has a response of the table, 0 and 255 among them. -/
theorem test_met_every_count (n : Byte) : (Response.i2cScan n (List.replicate n.toNat 1)).followsTable = true :=
  decide_eq_true List.length_replicate

/-- A facade's operation whose write fails, and its transaction alone. -/
theorem test_met_call : got (fun t => t.bridge) (step (onOpenLink [.transceive 0 [] (some 3) []])) =
      some (some (.failed .transportFailure)) ∧
    got (fun t => (t.linkTx, t.bridge, t.facade)) (step (onOpenLink [.call .ping (some 3) []])) =
      some ([0xAA, 0, 0], some (.failed .transportFailure), some .operationFailed) := by decide

theorem test_met_oversize : (List.replicate 65536 (0 : Byte)).length > maxPayload := by
  rw [List.length_replicate]; decide

theorem test_met_failed_write : (onOpenLink [.transceive 0 [] (some 3) []]).session ≠ .closed ∧
    (onOpenLink [.transceive 0 [] (some 3) []]).inputs = [.transceive 0 [] (some 3) []] ∧
    txValid (inPhase .ePay [.writeFails]) = true ∧ txValid (inPhase .idle [.writeFails]) = false := by decide

/-- The source's scenario (program P4). -/
theorem test_met_recovery : [0xAA, 0, 0, 5, 0, 0xDE, 0xAD] <+: frame 0 [0, 0xDE, 0xAD, 0xBE, 0xEF] ∧
    ([0xAA, 0, 0, 5, 0, 0xDE, 0xAD] : List Byte) ≠ [] ∧
    [0xAA, 0, 0, 5, 0, 0xDE, 0xAD] ≠ frame 0 [0, 0xDE, 0xAD, 0xBE, 0xEF] ∧
    (onOpenLink (.transceive 0 [] none [0xAA, 0, 0, 5, 0, 0xDE, 0xAD] ::
      ([0xBE, 0xEF, 0x2D, 0x55].map .arrive ++
        .transceive 0 [] none (frame 0 [0, 0xDE, 0xAD, 0xBE, 0xEF] ++ []) :: []))).phase = .idle := by decide

end Sys2Proof.Tests
end

section
/-! The statements of 10_state.md: the invariant, COMPUTE, the host's reads, reset and the derived flags. -/

namespace Sys2Proof.Machine

-- Stepping

/-- A step takes the oldest input (R36). -/
theorem step_of_inputs {s : State} {e : Input} {es : List Input} (h : s.inputs = e :: es) :
    step s = handle e { s with inputs := es } := by
  unfold step; rw [h]

theorem step_of_no_inputs {s : State} (h : s.inputs = []) : step s = .next s := by
  unfold step; rw [h]

theorem steps_succ {s t : State} (h : step s = .next t) (k : Nat) : steps (k + 1) s = steps k t := by
  rw [steps, h]

/-- What a step that answers has done: held, or taken the oldest input. -/
theorem step_cases {s t : State} (h : step s = .next t) :
    t = s ∨ ∃ e es, s.inputs = e :: es ∧ handle e { s with inputs := es } = .next t := by
  cases hin : s.inputs with
  | nil => rw [step_of_no_inputs hin] at h; cases h; exact .inl rfl
  | cons e es => exact .inr ⟨e, es, rfl, step_of_inputs hin ▸ h⟩

-- What each event can do

/-- An operation that runs began in an idle block, and this is its next state (R116, R117, R135, R162). -/
theorem exec_operation_cases {i : Instr} {s t : State} (hi : i.frameParts = none) (h : exec i s = .next t) :
    s.phase = .idle ∧
    ((i = .ckinit ∧ t = finishWith .none { s with acc := ckInit, known := { s.known with acc := true } }) ∨
     (∃ a, i = .ckupd a ∧ t = finishWith .none (nextDraw { s with acc := byteStep (accOperand s) a })) ∨
     (∃ a n, i = .encode a n ∧ t = acceptEncode a n s) ∨
     (i = .decode ∧ t = acceptDecode s)) := by
  cases i with
  | ckinit =>
    simp only [exec, execCkinit] at h
    split at h <;> cases h
    exact ⟨‹_›, .inl ⟨rfl, rfl⟩⟩
  | ckupd a =>
    simp only [exec, execCkupd] at h
    split at h <;> cases h
    exact ⟨‹_›, .inr (.inl ⟨a, rfl, rfl⟩)⟩
  | encode a n =>
    simp only [exec, execEncode] at h
    split at h <;> cases h
    exact ⟨‹_›, .inr (.inr (.inl ⟨a, n, rfl, rfl⟩))⟩
  | decode =>
    simp only [exec, execDecode] at h
    split at h <;> cases h
    exact ⟨‹_›, .inr (.inr (.inr ⟨rfl, rfl⟩))⟩
  | _ => cases hi

/-- A `tx_accept` that has a move. -/
theorem takeAccept_cases {s t : State} (h : takeAccept s = .next t) : txValid s = true ∧ t = txStep s := by
  unfold takeAccept at h
  split at h <;> cases h
  exact ⟨‹_›, rfl⟩

/-- An `rx` that has a move takes the oldest pending byte. -/
theorem takeRx_cases {s t : State} (h : takeRx s = .next t) :
    rxWant s = true ∧ ∃ b rest, s.linkRx = b :: rest ∧ t = rxStep b { s with linkRx := rest } := by
  unfold takeRx at h
  split at h
  · rename_i hw
    split at h <;> cases h
    exact ⟨hw, _, _, ‹_›, rfl⟩
  · cases h

/-- An `rx_timeout` that has a move. -/
theorem takeTimeout_cases {s t : State} (h : takeTimeout s = .next t) : rxWant s = true ∧ t = timeoutStep s := by
  unfold takeTimeout at h
  split at h <;> cases h
  exact ⟨‹_›, rfl⟩

@[simp] theorem txValid_of_idle {s : State} (hp : s.phase = .idle) : txValid s = false := by
  simp [txValid, hp, Phase.sends]

@[simp] theorem rxWant_of_idle {s : State} (hp : s.phase = .idle) : rxWant s = false := by
  simp [rxWant, hp, Phase.receives]

@[simp] theorem busy_of_idle {s : State} (hp : s.phase = .idle) : busy s = false := by
  simp [busy, hp]

/-- The link has nothing to serve in an idle block (R273). -/
theorem transfer_of_idle {s : State} (hp : s.phase = .idle) : transfer s = .refused .nothingToTransfer := by
  simp [transfer, hp]

-- What surrounds the block leaves it alone

/-- The registers, both buffers, the phase and the number of the ENCODE are the same: what remains is the environment
and the counter of the other free values. -/
structure SameBlock (s t : State) : Prop where
  phase : t.phase = s.phase
  acc : t.acc = s.acc
  cmd : t.cmd = s.cmd
  len : t.len = s.len
  idx : t.idx = s.idx
  rxck : t.rxck = s.rxck
  done : t.done = s.done
  err : t.err = s.err
  txbuf : t.txbuf = s.txbuf
  rxbuf : t.rxbuf = s.rxbuf
  known : t.known = s.known
  encodes : t.encodes = s.encodes

theorem readValue_sameBlock (r : HostReg) (s : State) : SameBlock s (readValue r s) := by
  obtain ⟨v, n, h⟩ := readValue_cases r s
  rw [h]; constructor <;> rfl

theorem openLink_sameBlock (c : LinkConfig) (fails : Bool) (s : State) : SameBlock s (openLink c fails s) := by
  obtain ⟨r, x, h⟩ := openLink_cases c fails s
  rw [h]; constructor <;> rfl

theorem withInputs_sameBlock (es : List Input) (s : State) : SameBlock s { s with inputs := es } := by
  constructor <;> rfl
theorem withLinkRx_sameBlock (bs : List Byte) (s : State) : SameBlock s { s with linkRx := bs } := by
  constructor <;> rfl
theorem verdict_sameBlock (f : Facade) (s : State) : SameBlock s (verdict f s) := by constructor <;> rfl
theorem reply_sameBlock (r : LinkReply) (s : State) : SameBlock s (reply r s) := by constructor <;> rfl
theorem withBridge_sameBlock (r : Option BridgeResult) (s : State) : SameBlock s { s with bridge := r } := by
  constructor <;> rfl

/-- The inputs that only the link or the host sees: a byte that arrives, a discard, a host read, the session, a write
given up. -/
def Input.isOutside : Input → Bool
  | .arrive _ | .discard | .hostRead _ | .openLink _ _ | .closeLink | .linkFails _ | .writeFails => true
  | .reset | .start _ _ _ | .txAccept | .rx | .rxTimeout | .transfer | .hostWrite _ _ | .transceive _ _ _ _
  | .call _ _ _ => false

/-- Such an input leaves the block alone, in every phase. -/
theorem sameBlock_of_handle {e : Input} {s t : State} (he : e.isOutside = true) (h : handle e s = .next t) :
    SameBlock s t := by
  cases e with
  | hostRead r => rw [hostRead_cases h]; exact readValue_sameBlock r s
  | openLink c fails => cases h; exact openLink_sameBlock c fails s
  | writeFails => rw [writeFails_cases h]; exact reply_sameBlock _ s
  | arrive _ | discard | closeLink | linkFails _ => cases h; constructor <;> rfl
  | reset | start _ _ _ | txAccept | rx | rxTimeout | transfer | hostWrite _ _ | transceive _ _ _ _ | call _ _ _ =>
    cases he

-- The payload received so far

theorem rxPayload_congr {s t : State} (h : t.rxbuf = s.rxbuf) (n : Nat) : rxPayload t n = rxPayload s n := by
  simp [rxPayload, h]

/-- A byte stored at index `n` is the next one of the payload. -/
theorem rxPayload_memWrite {s t : State} {n : Nat} {b : Byte} (h : t.rxbuf = memWrite s.rxbuf n b) :
    rxPayload t (n + 1) = rxPayload s n ++ [b] := by
  have hbelow : ∀ i ∈ List.range n, memRead (memWrite s.rxbuf n b) i = memRead s.rxbuf i := fun i hi =>
    memRead_memWrite_other _ _ (List.mem_range.1 hi).ne'
  simp [rxPayload, h, List.range_succ, List.filterMap_congr hbelow]

theorem memRead_memWrite_isSome {m : Memory} {n : Nat} (b : Byte) (h : ∀ i < n, (memRead m i).isSome) :
    ∀ i < n + 1, (memRead (memWrite m n b) i).isSome := by
  intro i hi
  rcases Nat.lt_succ_iff_lt_or_eq.1 hi with hlt | rfl
  · rw [memRead_memWrite_other _ _ hlt.ne']; exact h i hlt
  · simp

@[simp] theorem txPayload_txStep (s : State) (n : Nat) : txPayload (txStep s) n = txPayload s n :=
  have ⟨htx, _, hencodes, _⟩ := txStep_frame s
  txPayload_congr htx hencodes n

theorem toNat_pos_of_ne_zero {n : Half} (h : n ≠ 0#16) : 0 < n.toNat := by
  simpa [BitVec.lt_def] using (BitVec.pos_iff_ne_zero n).2 h

theorem idx_succ_lt {i n : Half} (h : i.toNat < n.toNat) (hne : ¬ i + 1#16 = n) : (i + 1#16).toNat < n.toNat := by
  have := idx_succ_toNat h
  have := mt (idx_succ_eq_iff h).2 hne
  omega

-- The invariant

theorem inv_of_idle {s : State} (hp : s.phase = .idle) (htx : Memory.wf s.txbuf = true)
    (hrx : Memory.wf s.rxbuf = true) : Inv s :=
  ⟨htx, hrx, by simp [phaseInv, hp]⟩

/-- The invariant speaks of the block alone. -/
theorem inv_of_sameBlock {s t : State} (h : SameBlock s t) (hs : Inv s) : Inv t := by
  simpa only [Inv, phaseInv, h.phase, h.acc, h.len, h.idx, h.done, h.txbuf, h.rxbuf, txPayload_congr h.txbuf h.encodes,
    rxPayload_congr h.rxbuf] using hs

theorem inv_resetBlock (s : State) : Inv (resetBlock s) := inv_of_idle rfl rfl rfl

theorem inv_finishWith (e : ErrCode) {s : State} (htx : Memory.wf s.txbuf = true) (hrx : Memory.wf s.rxbuf = true) :
    Inv (finishWith e s) :=
  inv_of_idle rfl htx hrx

theorem inv_failDecode (e : ErrCode) {s : State} (htx : Memory.wf s.txbuf = true) : Inv (failDecode e s) :=
  inv_of_idle rfl htx rfl

theorem inv_passDecode {s : State} (htx : Memory.wf s.txbuf = true) (hrx : Memory.wf s.rxbuf = true) :
    Inv (passDecode s) :=
  inv_of_idle rfl htx (wf_memBelow _ hrx)

theorem inv_acceptDecode {s : State} (htx : Memory.wf s.txbuf = true) (hrx : Memory.wf s.rxbuf = true) :
    Inv (acceptDecode s) :=
  ⟨htx, hrx, rfl⟩

theorem inv_acceptEncode (a : Byte) (n : Nat) {s : State} (htx : Memory.wf s.txbuf = true)
    (hrx : Memory.wf s.rxbuf = true) : Inv (acceptEncode a n s) := by
  unfold acceptEncode
  split
  · exact inv_finishWith _ htx hrx
  · exact ⟨htx, hrx, rfl, rfl, rfl⟩

/-- An accepted payload byte: `idx` counts it and `acc` takes it in (R137, R138). -/
theorem phaseInv_txStep_of_ePay {s : State} (hp : s.phase = .ePay) (hs : phaseInv s) : phaseInv (txStep s) := by
  simp only [phaseInv, hp] at hs
  obtain ⟨hdone, hlt, hacc⟩ := hs
  have hidx := idx_succ_toNat hlt
  have hck : byteStep s.acc (txByte s s.idx.toNat) = checksum (txPayload s (s.idx + 1#16).toNat) := by
    rw [hidx, txPayload_succ, checksum_append, hacc]
  simp only [phaseInv, txPayload_txStep]
  by_cases hend : s.idx + 1#16 = s.len
  · simp only [txStep, hp, offeredByte, if_pos hend]
    exact ⟨hdone, hend, hend ▸ hck⟩
  · simp only [txStep, hp, offeredByte, if_neg hend]
    exact ⟨hdone, idx_succ_lt hlt hend, hck⟩

/-- The last byte of the header: the payload begins, or there is none (R138). -/
theorem phaseInv_txStep_of_eLenl {s : State} (hp : s.phase = .eLenl) (hs : phaseInv s) : phaseInv (txStep s) := by
  simp only [phaseInv, hp] at hs
  obtain ⟨hdone, hidx, hacc⟩ := hs
  simp only [phaseInv, txPayload_txStep]
  by_cases h0 : s.len = 0#16
  · simp only [txStep, hp, if_pos h0]
    exact ⟨hdone, hidx.trans h0.symm, by simp [hacc, h0, txPayload]⟩
  · simp only [txStep, hp, if_neg h0]
    exact ⟨hdone, by simpa [hidx] using toNat_pos_of_ne_zero h0, by simp [hacc, hidx, txPayload]⟩

theorem phaseInv_txStep {s : State} (hs : phaseInv s) : phaseInv (txStep s) := by
  cases hp : s.phase with
  | eSof | eCmd | eLenh => simpa [phaseInv, txStep, hp] using hs
  | eLenl => exact phaseInv_txStep_of_eLenl hp hs
  | ePay => exact phaseInv_txStep_of_ePay hp hs
  | eCk =>
    simp only [phaseInv, txPayload_txStep]
    simpa [phaseInv, txStep, hp] using hs
  | eEof => simp [phaseInv, txStep, hp]
  | idle | dSof | dCmd | dLenh | dLenl | dPay | dCk | dEof =>
    rwa [txStep_of_not_valid (by simp [txValid, Phase.sends, hp])]

theorem inv_txStep {s : State} (hs : Inv s) : Inv (txStep s) := by
  obtain ⟨htx, hrx, hph⟩ := hs
  obtain ⟨etx, erx, -⟩ := txStep_frame s
  exact ⟨etx ▸ htx, erx ▸ hrx, phaseInv_txStep hph⟩

theorem inv_txRun (n : Nat) {s : State} (hs : Inv s) : Inv (txRun n s) := by
  induction n generalizing s with
  | zero => exact hs
  | succ n ih => exact ih (inv_txStep hs)

/-- The last byte of the header: the payload begins, or there is none (R163). -/
theorem inv_rxStep_of_dLenl (b : Byte) {s : State} (hp : s.phase = .dLenl) (hs : Inv s) : Inv (rxStep b s) := by
  obtain ⟨htx, hrx, hph⟩ := hs
  have hdone : s.done = false := by simpa [phaseInv, hp] using hph
  refine ⟨by simpa only [rxStep, hp] using htx, by simpa only [rxStep, hp] using hrx, ?_⟩
  by_cases h0 : joinLen (hi8 s.len) b = 0#16
  · simp [phaseInv, rxStep, hp, h0, hdone, rxPayload]
  · simp only [phaseInv, rxStep, hp, if_neg h0]
    exact ⟨hdone, by simpa using toNat_pos_of_ne_zero h0, by simp, by simp [rxPayload]⟩

/-- A received payload byte is stored, counted by `idx` and taken in by `acc` (R118, R163). -/
theorem inv_rxStep_of_dPay (b : Byte) {s : State} (hp : s.phase = .dPay) (hs : Inv s) : Inv (rxStep b s) := by
  obtain ⟨htx, hrx, hph⟩ := hs
  simp only [phaseInv, hp] at hph
  obtain ⟨hdone, hlt, hheld, hacc⟩ := hph
  have hidx := idx_succ_toNat hlt
  have hbuf : (rxStep b s).rxbuf = memWrite s.rxbuf s.idx.toNat b := by simp only [rxStep, hp]
  have hwf : Memory.wf (rxStep b s).rxbuf = true := by
    have := s.len.isLt
    exact hbuf ▸ wf_memWrite b hrx (by unfold maxPayload; omega)
  have hheld' : ∀ i < (s.idx + 1#16).toNat, (memRead (rxStep b s).rxbuf i).isSome := by
    rw [hidx, hbuf]; exact memRead_memWrite_isSome b hheld
  have hck : byteStep s.acc b = checksum (rxPayload (rxStep b s) (s.idx + 1#16).toNat) := by
    rw [hidx, rxPayload_memWrite hbuf, checksum_append, hacc]
  refine ⟨by simpa only [rxStep, hp] using htx, hwf, ?_⟩
  by_cases hend : s.idx + 1#16 = s.len
  · rw [hend] at hheld' hck
    simp only [phaseInv, rxStep, hp, if_pos hend] at hheld' hck ⊢
    exact ⟨hdone, hend, hheld', hck⟩
  · simp only [phaseInv, rxStep, hp, if_neg hend] at hheld' hck ⊢
    exact ⟨hdone, idx_succ_lt hlt hend, hheld', hck⟩

theorem inv_endStep (b : Byte) {s : State} (htx : Memory.wf s.txbuf = true) (hrx : Memory.wf s.rxbuf = true) :
    Inv (endStep b s) := by
  unfold endStep
  (repeat' split)
  · exact inv_failDecode _ htx
  · exact inv_failDecode _ htx
  · exact inv_passDecode htx hrx

theorem inv_rxStep (b : Byte) {s : State} (hs : Inv s) : Inv (rxStep b s) := by
  have ⟨htx, hrx, _⟩ := hs
  cases hp : s.phase with
  | dLenl => exact inv_rxStep_of_dLenl b hp hs
  | dPay => exact inv_rxStep_of_dPay b hp hs
  | dSof =>
    simp only [rxStep, hp]
    split
    · simpa [Inv, phaseInv, hp] using hs
    · exact inv_failDecode _ htx
  | dCmd | dLenh => simpa [Inv, phaseInv, rxStep, hp] using hs
  | dCk => simpa [Inv, phaseInv, rxStep, hp, rxPayload] using hs
  | dEof =>
    simp only [rxStep, hp]
    exact inv_endStep b htx hrx
  | idle | eSof | eCmd | eLenh | eLenl | ePay | eCk | eEof => simpa only [rxStep, hp] using hs

theorem inv_timeoutStep {s : State} (hs : Inv s) : Inv (timeoutStep s) := by
  cases hp : s.phase with
  | dSof | dCmd | dLenh | dLenl | dPay | dCk | dEof =>
    simp only [timeoutStep, hp]
    exact inv_failDecode _ hs.1
  | idle | eSof | eCmd | eLenh | eLenl | ePay | eCk | eEof => simpa only [timeoutStep, hp] using hs

theorem inv_withLinkRx (bs : List Byte) {s : State} (hs : Inv s) : Inv { s with linkRx := bs } :=
  inv_of_sameBlock (withLinkRx_sameBlock bs s) hs

theorem inv_deliver (bs : List Byte) {s : State} (hs : Inv s) : Inv (deliver bs s) := by
  induction bs generalizing s with
  | nil => exact hs
  | cons b bs ih =>
    cases hw : rxWant s with
    | true => rw [deliver_cons hw]; exact ih (inv_rxStep b hs)
    | false => rw [deliver_of_not_want hw]; exact inv_withLinkRx _ hs

theorem inv_answerAll {s : State} (hs : Inv s) : Inv (answerAll s) := by
  have hd := inv_deliver s.linkRx (inv_withLinkRx [] hs)
  simp only [answerAll]
  split
  · exact inv_timeoutStep hd
  · exact hd

-- The invariant across instructions and events

theorem inv_passFrame {bs : List Byte} {s t : State} (hs : Inv s) (h : passFrame bs s = .next t) : Inv t := by
  rcases passFrame_cases h with ⟨-, rfl⟩ | rfl
  · exact inv_txRun _ hs
  · exact inv_deliver _ hs

/-- Every instruction keeps the invariant. -/
theorem inv_exec {i : Instr} {s t : State} (hs : Inv s) (h : exec i s = .next t) : Inv t := by
  have ⟨htx, hrx, _⟩ := hs
  cases hi : i.frameParts with
  | some cf => exact inv_passFrame hs (exec_frame hi s ▸ h)
  | none =>
    obtain ⟨-, ⟨-, rfl⟩ | ⟨a, -, rfl⟩ | ⟨a, n, -, rfl⟩ | ⟨-, rfl⟩⟩ := exec_operation_cases hi h
    · exact inv_finishWith _ htx hrx
    · exact inv_finishWith _ htx hrx
    · exact inv_acceptEncode a n htx hrx
    · exact inv_acceptDecode htx hrx

theorem inv_transfer {s t : State} (hs : Inv s) (h : transfer s = .next t) : Inv t := by
  obtain ⟨bs, rest, -, h⟩ | ⟨bs, h⟩ | ⟨-, rfl⟩ | ⟨-, rfl⟩ := transfer_cases h
  · exact inv_passFrame (inv_withLinkRx rest hs) h
  · exact inv_passFrame hs h
  · exact inv_answerAll hs
  · exact inv_txRun _ hs

theorem inv_hostWrite {i : Nat} {b : Byte} {s t : State} (hs : Inv s) (h : hostWrite i b s = .next t) : Inv t := by
  obtain ⟨hi, hp, rfl⟩ := hostWrite_cases h
  obtain ⟨htx, hrx, -⟩ := hs
  exact inv_of_idle hp (wf_memWrite b htx hi) hrx

theorem inv_beginRequest (c : Byte) (p : List Byte) {s : State} (htx : Memory.wf s.txbuf = true)
    (hrx : Memory.wf s.rxbuf = true) : Inv (beginRequest c p s) := by
  unfold beginRequest
  split
  · exact inv_acceptEncode c _ (wf_memLoad p _ 0 htx (by omega)) hrx
  · exact inv_acceptEncode c _ htx hrx

theorem inv_takeResponse (resp : List Byte) {s : State} (hs : Inv s) : Inv (takeResponse resp s) := by
  obtain ⟨htx, hrx, -⟩ := hs
  exact inv_of_sameBlock (withBridge_sameBlock _ _) (inv_answerAll (inv_acceptDecode htx hrx))

theorem inv_transceive {c : Byte} {p : List Byte} {cut : Option Nat} {resp : List Byte} {s t : State} (hs : Inv s)
    (h : transceive c p cut resp s = .next t) : Inv t := by
  have ⟨htx, hrx, _⟩ := hs
  have hreq : Inv (beginRequest c p s) := inv_beginRequest c p htx hrx
  obtain ⟨-, rfl⟩ | ⟨-, -, ⟨n, rfl⟩ | rfl | rfl⟩ := transceive_cases h
  · exact inv_of_sameBlock (withBridge_sameBlock _ _) hs
  · exact inv_of_idle rfl rfl rfl
  · exact inv_takeResponse resp (inv_of_sameBlock (reply_sameBlock _ _) (inv_txRun _ hreq))
  · exact inv_of_sameBlock (withBridge_sameBlock _ _) hreq

theorem inv_handle {e : Input} {s t : State} (hs : Inv s) (h : handle e s = .next t) : Inv t := by
  cases e with
  | reset => cases h; exact inv_resetBlock s
  | start op a plen => exact inv_exec hs (exec_of_takeStart h)
  | txAccept => obtain ⟨-, rfl⟩ := takeAccept_cases h; exact inv_txStep hs
  | rx => obtain ⟨-, b, rest, -, rfl⟩ := takeRx_cases h; exact inv_rxStep b (inv_withLinkRx rest hs)
  | rxTimeout => obtain ⟨-, rfl⟩ := takeTimeout_cases h; exact inv_timeoutStep hs
  | transfer => exact inv_transfer hs h
  | hostWrite i b => exact inv_hostWrite hs h
  | transceive c p cut resp => exact inv_transceive hs h
  | call q cut resp =>
    obtain ⟨u, hu, rfl⟩ := call_cases h
    exact inv_of_sameBlock (verdict_sameBlock _ _) (inv_transceive hs hu)
  | arrive _ | discard | hostRead _ | openLink _ _ | closeLink | linkFails _ | writeFails =>
    exact inv_of_sameBlock (sameBlock_of_handle rfl h) hs

/-- Settles O43: by the event the step takes, and within ENCODE and DECODE by the phase. -/
theorem everyStepKeepsTheInvariant : Obligations.EveryStepKeepsTheInvariant := by
  intro s t hs h
  obtain rfl | ⟨e, es, -, h⟩ := step_cases h
  · exact hs
  · exact inv_handle (inv_of_sameBlock (withInputs_sameBlock es s) hs) h

/-- Settles O44: an idle block with empty buffers has it. -/
theorem invariantHoldsAtReset : Obligations.InvariantHoldsAtReset :=
  inv_of_idle rfl rfl rfl

-- Results, COMPUTE and the host's reads

/-- A host write reaches TXBUF alone, and no event but a `start`, a `reset` and a transaction reaches further in an idle
block. -/
theorem sameBlock_of_handle_idle {e : Input} {s t : State} (hp : s.phase = .idle) (hstart : e.isStart = false)
    (hreset : e ≠ .reset) (htrans : e.isTransceive = false) (h : handle e s = .next t) :
    SameBlock { s with txbuf := t.txbuf } t := by
  cases e with
  | reset => exact absurd rfl hreset
  | start _ _ _ => cases hstart
  | transceive _ _ _ _ | call _ _ _ => cases htrans
  | txAccept => simpa [hp] using (takeAccept_cases h).1
  | rx => simpa [hp] using (takeRx_cases h).1
  | rxTimeout => simpa [hp] using (takeTimeout_cases h).1
  | transfer => rw [handle, transfer_of_idle hp] at h; cases h
  | hostWrite i b => obtain ⟨-, -, rfl⟩ := hostWrite_cases h; constructor <;> rfl
  | arrive _ | discard | hostRead _ | openLink _ _ | closeLink | linkFails _ | writeFails =>
    exact { sameBlock_of_handle rfl h with txbuf := rfl }

/-- Settles O5: no event but the three excluded ones reaches further than TXBUF in an idle block. -/
theorem resultsStayUntilNextStart : Obligations.ResultsStayUntilNextStart := by
  intro s t e es hin hp hstart hreset htrans h
  rw [step_of_inputs hin] at h
  have hsame := sameBlock_of_handle_idle (s := { s with inputs := es }) hp hstart hreset htrans h
  exact ⟨hsame.phase.trans hp, hsame.done, hsame.err, hsame.acc, hsame.cmd, hsame.len, hsame.idx, hsame.rxck,
    hsame.known, fun i => by rw [hsame.rxbuf]⟩

/-- A step on the `start` of a CKUPD in an idle block whose accumulator holds a value (R117). -/
theorem step_ckupd {s : State} {b : Byte} {es : List Input} (hp : s.phase = .idle) (hk : s.known.acc = true)
    (hin : s.inputs = .start 1#2 b 0 :: es) :
    step s = .next { s with
      acc := byteStep s.acc b, done := true, err := .none, draws := s.draws + 1, inputs := es } := by
  rw [step_of_inputs hin, handle, takeStart_eq_exec (.inl (by decide))]
  simp [decodeStart, exec, execCkupd, hp, accOperand, hk, finishWith, nextDraw]

/-- A step on the `start` of CKINIT in an idle block (R116). -/
theorem step_ckinit {s : State} {es : List Input} (hp : s.phase = .idle) (hin : s.inputs = .start 0#2 0#8 0 :: es) :
    step s = .next { s with
      acc := ckInit, done := true, err := .none, known := { s.known with acc := true }, inputs := es } := by
  rw [step_of_inputs hin, handle, takeStart_eq_exec (.inl (by decide))]
  simp [decodeStart, exec, execCkinit, hp, finishWith]

/-- One CKUPD for each byte of `p`, after an operation that left a value in the accumulator, as one update. -/
theorem steps_ckupd (p : List Byte) {es : List Input} : ∀ s : State, s.phase = .idle → s.known.acc = true →
    s.done = true → s.err = .none → s.inputs = p.map (fun b => .start 1#2 b 0) ++ es →
    steps p.length s =
      .next { s with acc := checksumFrom s.acc p, draws := s.draws + p.length, inputs := es } := by
  induction p with
  | nil =>
    intro s _ _ _ _ hin
    obtain rfl : s.inputs = es := hin
    rfl
  | cons b p ih =>
    intro s hp hk hd he hin
    rw [List.length_cons, steps_succ (step_ckupd hp hk hin), ih]
    · simp [hd, he, Nat.add_assoc, Nat.add_comm 1]
    · exact hp
    · exact hk
    · rfl
    · rfl
    · rfl

/-- Settles O10: CKINIT sets the accumulator to 0xFF, and the bytes follow by induction. -/
theorem computeLeavesTheChecksum : Obligations.ComputeLeavesTheChecksum := by
  intro s p es hp hin
  refine ⟨_, (steps_succ (step_ckinit hp hin) _).trans (steps_ckupd p _ hp rfl rfl rfl rfl), ?_⟩
  refine ⟨rfl, ?_, hp, rfl, rfl, rfl, rfl, rfl, rfl, fun i => ⟨rfl, rfl⟩, ⟨rfl, rfl⟩, ⟨rfl, rfl, rfl, rfl, rfl⟩, rfl⟩
  simp [heldValue, hp, checksum]

theorem heldValue_of_busy (r : HostReg) {s : State} (h : s.phase ≠ .idle) : heldValue r s = none := by
  simp [heldValue, busy, h]

/-- What the host reads where a location holds a value (R26). -/
theorem readValue_of_held {r : HostReg} {s : State} {v : Half} (h : heldValue r s = some v) :
    readValue r s = { s with readout := v } := by
  unfold readValue; rw [h]

/-- Where a location holds none, the host reads a free value (R37). -/
theorem readValue_of_not_held {r : HostReg} {s : State} (h : heldValue r s = none) :
    ∃ v, readValue r s = { s with readout := v, draws := s.draws + 1 } := by
  unfold readValue; rw [h]; exact ⟨_, rfl⟩

/-- A host read that is in range and does not meet a DECODE has a move. -/
theorem hostRead_eq_readValue {r : HostReg} {s : State} (h : ∀ i, r = .rxbuf i → i < maxPayload ∧ rxWant s = false) :
    hostRead r s = .next (readValue r s) := by
  cases r with
  | rxbuf i =>
    obtain ⟨hi, hw⟩ := h i rfl
    simp [hostRead, hi, hw]
  | acc | cmd | len | done | err | busy | txValid | rxWant => rfl

theorem hostRead_fault {i : Nat} (h : maxPayload ≤ i) (s : State) :
    hostRead (.rxbuf i) s = .fault .bufferIndexOutOfRange :=
  if_pos h

theorem hostRead_during_decode {i : Nat} {s : State} (h : i < maxPayload) (hw : rxWant s = true) :
    hostRead (.rxbuf i) s = .refused .rxbufReadDuringDecode := by
  simp [hostRead, h, hw]

/-- Settles O48: the reads by what the location holds, then the table of what an idle block holds. -/
theorem hostReadsWhatIsHeld : Obligations.HostReadsWhatIsHeld := by
  refine ⟨fun s r es hin => ?_, fun s hp r => heldValue_of_busy r hp, fun s hp => ?_⟩
  · rw [step_of_inputs hin, handle]
    refine ⟨?_, ?_, fun hr => ?_⟩
    · rintro ⟨i, rfl, hi⟩
      exact hostRead_fault hi _
    · rintro ⟨i, rfl, hi⟩ hw
      exact hostRead_during_decode hi hw
    · rw [hostRead_eq_readValue (s := { s with inputs := es }) hr]
      refine ⟨fun v hv => congrArg _ (readValue_of_held hv), fun hv => ?_⟩
      obtain ⟨v, h⟩ := readValue_of_not_held (s := { s with inputs := es }) hv
      exact ⟨v, congrArg _ h⟩
  · simp [heldValue, hp, bitOf]

-- Reset, the derived flags, the codes, the started operation

/-- Settles O1: both states are written out by the model. -/
theorem resetLeavesIdleWithoutValues : Obligations.ResetLeavesIdleWithoutValues := by
  have hvalues (s : State) : ResetValues (resetBlock s) := ⟨rfl, rfl, rfl, rfl, fun _ => ⟨rfl, rfl⟩⟩
  refine ⟨hvalues State.reset, fun s es hin => ⟨resetBlock { s with inputs := es }, ?_, hvalues _, ?_, ?_, rfl⟩⟩
  · rw [step_of_inputs hin, handle]
  · exact ⟨rfl, rfl⟩
  · exact ⟨rfl, rfl, rfl, rfl, rfl⟩

/-- Settles O2: a step without an input answers the state itself. -/
theorem blockHoldsWithoutEvent : Obligations.BlockHoldsWithoutEvent :=
  fun _ => step_of_no_inputs

/-- Settles O3: by the phase. -/
theorem derivedFlagsFollowPhase : Obligations.DerivedFlagsFollowPhase := by
  intro s
  cases hp : s.phase <;> simp [busy, txValid, rxWant, hp, Phase.sends, Phase.receives]

/-- Settles O4: by the result. -/
theorem errorCodesAreZeroToSix : Obligations.ErrorCodesAreZeroToSix := by
  refine ⟨by decide, fun e => ?_⟩
  cases e <;> decide

/-- Settles O45: a `start` that is no DECODE on a closed link is served by `exec`. -/
theorem stepRunsTheStartedOperation : Obligations.StepRunsTheStartedOperation := by
  intro s op a plen i es hin hdec hlink
  obtain rfl : decodeStart op a plen = i := Decoded.instr.inj hdec
  rw [step_of_inputs hin, handle, takeStart_eq_exec]
  exact hlink.imp_right .inl

end Sys2Proof.Machine
end

section
/-! The statements of 20_memory.md: who writes the buffers and the streams, and the link serving a whole operation. -/

namespace Sys2Proof.Machine

-- A whole frame at the head of the stream

/-- Bytes that decode to an instruction are exactly one frame, and the instruction is that frame (R80, R89). -/
theorem decode_wire_eq_instr {bs : List Byte} {i : Instr} (h : decode (.wire bs) = .instr i) :
    ∃ c f, i = frameInstr c f ∧ f.payload.length ≤ maxPayload ∧ bs = bodyBytes c f := by
  simp only [decode] at h
  split at h <;> cases h
  obtain ⟨c, f, hi, hf, hbs⟩ := decodeFrame_eq_frame ‹_›
  exact ⟨c, f, hi, hf, by simpa using hbs⟩

/-- Where a DECODE waits for its start byte, the link fetches the frame at the head of LINK_RX (R61, R80). -/
theorem transfer_of_fetched {s : State} {i : Instr} {rest : List Byte} (hp : s.phase = .dSof)
    (h : decodeFrame s.linkRx = .frame i rest) : transfer s = exec i { s with linkRx := rest } := by
  simp only [transfer, hp, h, if_true]

/-- Settles O46: the decoded bytes are one frame, which the link cuts off LINK_RX. -/
theorem stepRunsTheFetchedFrame : Obligations.StepRunsTheFetchedFrame := by
  intro s bs rest i es hin hp hrx hi
  obtain ⟨c, f, rfl, hf, rfl⟩ := decode_wire_eq_instr hi
  have hfetch : decodeFrame s.linkRx = .frame (frameInstr c f) rest := hrx ▸ decodeFrame_bodyBytes c f rest hf
  rw [step_of_inputs hin, handle, transfer_of_fetched (s := { s with inputs := es }) hp hfetch]

-- The link serves a whole ENCODE

/-- Where an ENCODE has sent nothing yet, the link takes all it offers, fetched as a frame or not (R61). -/
theorem transfer_of_eSof {s : State} (hp : s.phase = .eSof) :
    transfer s = .next (txRun (s.len.toNat + 6) s) := by
  simp only [transfer, hp, reduceCtorEq, if_false, if_true]
  split
  · obtain ⟨c, f, rfl, -, hbs⟩ := decode_wire_eq_instr ‹_›
    rw [exec_frame (frameInstr_parts c f), passFrame_send hp hbs]
  · rfl

/-- What an ENCODE reads agrees with TXBUF wherever the host has written it (R50, R272). -/
theorem payloadOf_txPayload (s : State) (n : Nat) : PayloadOf s n (txPayload s n) :=
  ⟨txPayload_length s n, fun i hi b hb => by simp [txPayload, txByte, txByteOf, hi, hb]⟩

/-- Settles O23: the run of the ENCODE as one update. -/
theorem transferSendsTheFrame : Obligations.TransferSendsTheFrame := by
  intro s es hp hs hin
  obtain ⟨-, -, hphase⟩ := hs
  simp only [phaseInv, hp] at hphase
  obtain ⟨-, hidx, hacc⟩ := hphase
  have hstep := step_of_inputs hin
  rw [handle, transfer_of_eSof (s := { s with inputs := es }) hp,
    txRun_frame (s := { s with inputs := es }) hp hidx hacc] at hstep
  refine ⟨_, txPayload s s.len.toNat, hstep, payloadOf_txPayload s _, ?_, rfl, ?_, rfl⟩
  · exact ⟨rfl, rfl, rfl, rfl, by simp, rfl, rfl⟩
  · exact ⟨fun _ => ⟨rfl, rfl⟩, rfl, rfl, ⟨rfl, rfl, rfl, rfl, rfl⟩, rfl⟩

-- The link serves a whole DECODE

/-- A byte step neither reads nor changes what is still pending. -/
theorem rxStep_withLinkRx (b : Byte) (s : State) (pending : List Byte) :
    rxStep b { s with linkRx := pending } = { rxStep b s with linkRx := pending } := by
  cases hp : s.phase <;> simp only [rxStep, hp, endStep] <;> (repeat' split) <;> rfl

/-- Bytes that end a DECODE leave what follows them pending, delivered or not (R64, R167). -/
theorem deliver_append_of_ends {xs : List Byte} (ys zs : List Byte) {s : State} (h : rxWant (deliver xs s) = false) :
    deliver (xs ++ ys) { s with linkRx := zs } = deliver xs { s with linkRx := ys ++ zs } := by
  induction xs generalizing s with
  | nil => exact deliver_of_not_want (s := { s with linkRx := zs }) h ys
  | cons b xs ih =>
    cases hw : rxWant s with
    | true =>
      rw [deliver_cons hw] at h
      rw [List.cons_append, deliver_cons (s := { s with linkRx := zs }) hw,
        deliver_cons (s := { s with linkRx := ys ++ zs }) hw, rxStep_withLinkRx b s zs, ih h,
        rxStep_withLinkRx b s (ys ++ zs)]
    | false =>
      rw [deliver_of_not_want (s := { s with linkRx := zs }) hw,
        deliver_of_not_want (s := { s with linkRx := ys ++ zs }) hw]
      simp

/-- After the end byte the DECODE is over (R163). -/
theorem endStep_phase (b : Byte) (s : State) : (endStep b s).phase = .idle := by
  unfold endStep
  (repeat' split) <;> rfl

/-- A whole frame, right or wrong in its two last bytes, ends a DECODE (R163). -/
theorem deliver_bodyBytes_ends {s : State} (hp : s.phase = .dSof) (c : Byte) {f : Body}
    (hf : f.payload.length ≤ maxPayload) : rxWant (deliver (bodyBytes c f) s) = false := by
  apply rxWant_of_idle
  rw [bodyBytes, wire_eq, deliver_body hp _ _ _ _ _ (by rw [joinLen_hi8_lo8, lenOf_toNat hf]), deliver_footer rfl]
  exact endStep_phase _ _

/-- Where a DECODE waits for its start byte, the link answers its reads with all that is pending, fetched as a frame or
not (R61, R161). -/
theorem transfer_of_dSof {s : State} (hp : s.phase = .dSof) : transfer s = .next (answerAll s) := by
  cases hd : decodeFrame s.linkRx with
  | rejected why => simp only [transfer, hp, hd, if_true]
  | frame i rest =>
    obtain ⟨c, f, rfl, hf, hrx⟩ := decodeFrame_eq_frame hd
    have hwant : rxWant { s with linkRx := rest } = true := by simp [rxWant, hp, Phase.receives]
    have hends : rxWant (deliver (bodyBytes c f) { s with linkRx := rest }) = false :=
      deliver_bodyBytes_ends (s := { s with linkRx := rest }) hp c hf
    have hall : deliver s.linkRx { s with linkRx := [] } = deliver (bodyBytes c f) { s with linkRx := rest } := by
      simpa [hrx] using deliver_append_of_ends rest [] (deliver_bodyBytes_ends hp c hf)
    rw [transfer_of_fetched hp hd, exec_frame (frameInstr_parts c f), passFrame_receive hwant]
    simp [answerAll, hall, hends]

/-- Settles O28: the link answers all reads, and a DECODE so answered hands back what Level A says. -/
theorem transferDecodesAsLevelA : Obligations.TransferDecodesAsLevelA := by
  intro s es hp hin
  have ⟨hresult, hrest⟩ := answerAll_levelA (s := { s with inputs := es }) hp
  have ⟨htx, hencodes, hdraws, hlinkTx, hsession, hinputs, hreadout, hbridge, hreply, hfacade⟩ :=
    answerAll_leaves { s with inputs := es }
  refine ⟨answerAll { s with inputs := es }, ?_, hresult, hrest, ?_, hinputs⟩
  · rw [step_of_inputs hin, handle, transfer_of_dSof (s := { s with inputs := es }) hp]
  · exact ⟨fun i => by rw [htx], hlinkTx, ⟨hsession, hreadout, hbridge, hreply, hfacade⟩, hdraws, hencodes⟩

-- What a frame and an operation leave alone

/-- What a passing frame leaves alone; LINK_TX where the block is not sending, the receiver's side where it is not
reading. -/
theorem passFrame_leaves {bs : List Byte} {s t : State} (h : passFrame bs s = .next t) :
    t.txbuf = s.txbuf ∧ SameHost s t ∧ t.inputs = s.inputs ∧ t.draws = s.draws ∧ t.encodes = s.encodes ∧
    (txValid s = false → t.linkTx = s.linkTx) ∧
    (rxWant s = false →
      t.rxck = s.rxck ∧ t.cmd = s.cmd ∧ t.len = s.len ∧ t.known = s.known ∧ t.rxbuf = s.rxbuf) := by
  obtain ⟨hp, rfl⟩ | rfl := passFrame_cases h
  · obtain ⟨htx, hrx, hencodes, hdraws, hlen, hcmd, hrxck, hknown, -, hsession, hinputs, hreadout, hbridge, hreply,
      hfacade⟩ := txRun_leaves (s.len.toNat + 6) s
    refine ⟨htx, ⟨hsession, hreadout, hbridge, hreply, hfacade⟩, hinputs, hdraws, hencodes, fun hv => ?_, fun _ => ?_⟩
    · simp [txValid, hp, Phase.sends] at hv
    · exact ⟨hrxck, hcmd, hlen, hknown, hrx⟩
  · obtain ⟨htx, hencodes, hdraws, hlinkTx, hsession, hinputs, hreadout, hbridge, hreply, hfacade⟩ :=
      deliver_leaves bs s
    refine ⟨htx, ⟨hsession, hreadout, hbridge, hreply, hfacade⟩, hinputs, hdraws, hencodes, fun _ => hlinkTx,
      fun hw => ?_⟩
    rw [deliver_of_not_want hw]
    exact ⟨rfl, rfl, rfl, rfl, rfl⟩

/-- Settles O37: a frame instruction is the passing of its wire bytes. -/
theorem passingFrameLeavesTheRest : Obligations.PassingFrameLeavesTheRest := by
  intro i c f s t hi h
  rw [exec_frame hi] at h
  obtain ⟨htx, hhost, hinputs, hdraws, hencodes, hlinkTx, hreceiver⟩ := passFrame_leaves h
  refine ⟨fun j => by rw [htx], hhost, hinputs, hdraws, hencodes, hlinkTx, fun hw => ?_⟩
  obtain ⟨hrxck, hcmd, hlen, hknown, hrx⟩ := hreceiver hw
  exact ⟨hrxck, hcmd, hlen, hknown, fun j => by rw [hrx]⟩

/-- The accepting step of an ENCODE: refused by its length or begun (R131, R135). -/
theorem acceptEncode_cases (a : Byte) (n : Nat) (s : State) :
    (n > maxPayload ∧ acceptEncode a n s = finishWith .payloadTooLarge s) ∨
    (n ≤ maxPayload ∧ acceptEncode a n s = beginEncode a n s) := by
  unfold acceptEncode
  split
  · exact .inl ⟨‹_›, rfl⟩
  · exact .inr ⟨by omega, rfl⟩

/-- What each of the four operations leaves alone (R54). -/
theorem operation_leaves {i : Instr} {s t : State} (hi : i.frameParts = none) (h : exec i s = .next t) :
    t.txbuf = s.txbuf ∧ t.rxbuf = s.rxbuf ∧ SameStreams s t ∧ SameHost s t ∧ t.inputs = s.inputs ∧
    t.rxck = s.rxck ∧ t.known.rxck = s.known.rxck := by
  obtain ⟨-, ⟨-, rfl⟩ | ⟨a, -, rfl⟩ | ⟨a, n, -, rfl⟩ | ⟨-, rfl⟩⟩ := exec_operation_cases hi h
  · exact ⟨rfl, rfl, ⟨rfl, rfl⟩, ⟨rfl, rfl, rfl, rfl, rfl⟩, rfl, rfl, rfl⟩
  · exact ⟨rfl, rfl, ⟨rfl, rfl⟩, ⟨rfl, rfl, rfl, rfl, rfl⟩, rfl, rfl, rfl⟩
  · obtain ⟨-, e⟩ | ⟨-, e⟩ := acceptEncode_cases a n s <;> rw [e] <;>
      exact ⟨rfl, rfl, ⟨rfl, rfl⟩, ⟨rfl, rfl, rfl, rfl, rfl⟩, rfl, rfl, rfl⟩
  · exact ⟨rfl, rfl, ⟨rfl, rfl⟩, ⟨rfl, rfl, rfl, rfl, rfl⟩, rfl, rfl, rfl⟩

/-- Settles O38: what all four leave alone, then by the operation. -/
theorem operationsLeaveTheRest : Obligations.OperationsLeaveTheRest := by
  intro i s t hi h
  obtain ⟨htx, hrx, hstreams, hhost, hinputs, hrxck, hknown⟩ := operation_leaves hi h
  refine ⟨fun j => ⟨by rw [htx], by rw [hrx]⟩, hstreams, hhost, hinputs, hrxck, hknown, ?_⟩
  obtain ⟨hp, ⟨rfl, rfl⟩ | ⟨a, rfl, rfl⟩ | ⟨a, n, rfl, rfl⟩ | ⟨rfl, rfl⟩⟩ := exec_operation_cases hi h
  · simp [hp]
  · simp [hp]
  · obtain ⟨-, e⟩ | ⟨hn, e⟩ := acceptEncode_cases a n s
    · simp [e]
    · have hfits : ¬ 65535 < n := Nat.not_lt.2 hn
      simp [e, hfits]
  · simp

-- LINK_TX

theorem passFrame_linkTx {bs : List Byte} {s t : State} (h : passFrame bs s = .next t) : s.linkTx <+: t.linkTx := by
  obtain ⟨-, rfl⟩ | rfl := passFrame_cases h
  · exact txRun_linkTx _ s
  · obtain ⟨-, -, -, hlinkTx, -⟩ := deliver_leaves bs s
    rw [hlinkTx]

theorem answerAll_linkTx (s : State) : (answerAll s).linkTx = s.linkTx :=
  have ⟨_, _, _, hlinkTx, _⟩ := answerAll_leaves s
  hlinkTx

theorem transfer_linkTx {s t : State} (h : transfer s = .next t) : s.linkTx <+: t.linkTx := by
  obtain ⟨bs, rest, -, h⟩ | ⟨bs, h⟩ | ⟨-, rfl⟩ | ⟨-, rfl⟩ := transfer_cases h
  · exact passFrame_linkTx (s := { s with linkRx := rest }) h
  · exact passFrame_linkTx h
  · rw [answerAll_linkTx]
  · exact txRun_linkTx _ s

/-- A transaction sends its request at most (R199). -/
theorem transceive_linkTx {c : Byte} {p : List Byte} {cut : Option Nat} {resp : List Byte} {s t : State}
    (h : transceive c p cut resp s = .next t) : s.linkTx <+: t.linkTx := by
  obtain ⟨hreq, -⟩ := beginRequest_leaves c p s
  obtain ⟨-, rfl⟩ | ⟨-, -, ⟨n, rfl⟩ | rfl | rfl⟩ := transceive_cases h
  · exact List.prefix_refl _
  · exact hreq ▸ txRun_linkTx n (beginRequest c p s)
  · have hresp : (takeResponse resp (reply .ok (txRun (p.length + 6) (beginRequest c p s)))).linkTx =
        (txRun (p.length + 6) (beginRequest c p s)).linkTx := answerAll_linkTx _
    exact hresp ▸ hreq ▸ txRun_linkTx _ (beginRequest c p s)
  · exact hreq ▸ List.prefix_refl _

/-- No event but an accepted byte, a transfer and a transaction reaches LINK_TX. -/
theorem linkTx_of_handle {e : Input} {s t : State} (haccept : e ≠ .txAccept) (htransfer : e ≠ .transfer)
    (htrans : e.isTransceive = false) (h : handle e s = .next t) : t.linkTx = s.linkTx := by
  cases e with
  | txAccept => exact absurd rfl haccept
  | transfer => exact absurd rfl htransfer
  | transceive _ _ _ _ | call _ _ _ => cases htrans
  | start op a plen =>
    obtain ⟨-, -, ⟨-, hlinkTx⟩, -⟩ := operation_leaves (decodeStart_frameParts op a plen) (exec_of_takeStart h)
    exact hlinkTx
  | rx =>
    obtain ⟨-, b, rest, -, rfl⟩ := takeRx_cases h
    obtain ⟨-, -, -, hlinkTx, -⟩ := rxStep_frame b { s with linkRx := rest }
    exact hlinkTx
  | rxTimeout =>
    obtain ⟨-, rfl⟩ := takeTimeout_cases h
    obtain ⟨-, -, -, hlinkTx, -⟩ := timeoutStep_frame s
    exact hlinkTx
  | hostWrite i b => obtain ⟨-, -, rfl⟩ := hostWrite_cases h; rfl
  | hostRead r => obtain ⟨v, n, e⟩ := readValue_cases r s; rw [hostRead_cases h, e]
  | openLink c fails => cases h; obtain ⟨r, x, e⟩ := openLink_cases c fails s; rw [e]; rfl
  | writeFails => rw [writeFails_cases h]; rfl
  | reset | arrive _ | discard | closeLink | linkFails _ => cases h; rfl

theorem handle_linkTx {e : Input} {s t : State} (h : handle e s = .next t) : s.linkTx <+: t.linkTx := by
  cases e with
  | txAccept => obtain ⟨-, rfl⟩ := takeAccept_cases h; exact txStep_linkTx s
  | transfer => exact transfer_linkTx h
  | transceive c p cut resp => exact transceive_linkTx h
  | call q cut resp => obtain ⟨u, hu, rfl⟩ := call_cases h; exact transceive_linkTx (t := u) hu
  | reset | start _ _ _ | rx | rxTimeout | arrive _ | discard | hostWrite _ _ | hostRead _ | openLink _ _ | closeLink
  | linkFails _ | writeFails =>
    rw [linkTx_of_handle (by simp) (by simp) rfl h]

/-- Settles O41: by the event the step takes. -/
theorem linkTxOnlyGrows : Obligations.LinkTxOnlyGrows := by
  intro s t h
  obtain rfl | ⟨e, es, hin, h⟩ := step_cases h
  · exact ⟨List.prefix_refl _, fun _ => rfl⟩
  · refine ⟨handle_linkTx (s := { s with inputs := es }) h, fun hother => ?_⟩
    obtain ⟨haccept, htransfer, htrans⟩ := hother e (by simp [hin])
    exact linkTx_of_handle (s := { s with inputs := es }) haccept htransfer htrans h

-- The payload buffers

theorem passFrame_txbuf {bs : List Byte} {s t : State} (h : passFrame bs s = .next t) : t.txbuf = s.txbuf :=
  (passFrame_leaves h).1

theorem passFrame_rxbuf {bs : List Byte} {s t : State} (h : passFrame bs s = .next t) (hw : rxWant s = false) :
    t.rxbuf = s.rxbuf :=
  have ⟨_, _, _, _, _, _, hreceiver⟩ := passFrame_leaves h
  have ⟨_, _, _, _, hrx⟩ := hreceiver hw
  hrx

theorem transfer_txbuf {s t : State} (h : transfer s = .next t) : t.txbuf = s.txbuf := by
  obtain ⟨bs, rest, -, h⟩ | ⟨bs, h⟩ | ⟨-, rfl⟩ | ⟨-, rfl⟩ := transfer_cases h
  · exact passFrame_txbuf (s := { s with linkRx := rest }) h
  · exact passFrame_txbuf h
  · exact (answerAll_leaves s).1
  · exact (txRun_leaves _ s).1

/-- Serving an ENCODE leaves RXBUF alone. -/
theorem transfer_rxbuf {s t : State} (h : transfer s = .next t) (hw : rxWant s = false) : t.rxbuf = s.rxbuf := by
  obtain ⟨bs, rest, hp, -⟩ | ⟨bs, h⟩ | ⟨hw', -⟩ | ⟨-, rfl⟩ := transfer_cases h
  · simp [rxWant, hp, Phase.receives] at hw
  · exact passFrame_rxbuf h hw
  · simp [hw] at hw'
  · obtain ⟨-, hrx, -⟩ := txRun_leaves (s.len.toNat + 6) s
    exact hrx

/-- Outside `reset` and a transaction, TXBUF is written by a host write alone (R50). -/
theorem txbuf_of_handle {e : Input} {s t : State} (hreset : e ≠ .reset) (htrans : e.isTransceive = false)
    (hwrite : e.isHostWrite = false) (h : handle e s = .next t) : t.txbuf = s.txbuf := by
  cases e with
  | reset => exact absurd rfl hreset
  | transceive _ _ _ _ | call _ _ _ => cases htrans
  | hostWrite _ _ => cases hwrite
  | start op a plen => exact (operation_leaves (decodeStart_frameParts op a plen) (exec_of_takeStart h)).1
  | txAccept => obtain ⟨-, rfl⟩ := takeAccept_cases h; exact (txStep_frame s).1
  | rx => obtain ⟨-, b, rest, -, rfl⟩ := takeRx_cases h; exact (rxStep_frame b _).1
  | rxTimeout => obtain ⟨-, rfl⟩ := takeTimeout_cases h; exact (timeoutStep_frame s).1
  | transfer => exact transfer_txbuf h
  | arrive _ | discard | hostRead _ | openLink _ _ | closeLink | linkFails _ | writeFails =>
    exact (sameBlock_of_handle rfl h).txbuf

/-- Outside `reset` and a transaction, RXBUF is written by a running DECODE alone (R51). -/
theorem rxbuf_of_handle {e : Input} {s t : State} (hreset : e ≠ .reset) (htrans : e.isTransceive = false)
    (hrx : e ≠ .rx) (htimeout : e ≠ .rxTimeout) (htransfer : e = .transfer → rxWant s = false)
    (h : handle e s = .next t) : t.rxbuf = s.rxbuf := by
  cases e with
  | reset => exact absurd rfl hreset
  | transceive _ _ _ _ | call _ _ _ => cases htrans
  | rx => exact absurd rfl hrx
  | rxTimeout => exact absurd rfl htimeout
  | hostWrite i b => obtain ⟨-, -, rfl⟩ := hostWrite_cases h; rfl
  | start op a plen =>
    obtain ⟨-, hrx, -⟩ := operation_leaves (decodeStart_frameParts op a plen) (exec_of_takeStart h)
    exact hrx
  | txAccept =>
    obtain ⟨-, rfl⟩ := takeAccept_cases h
    obtain ⟨-, hrx, -⟩ := txStep_frame s
    exact hrx
  | transfer => exact transfer_rxbuf h (htransfer rfl)
  | arrive _ | discard | hostRead _ | openLink _ _ | closeLink | linkFails _ | writeFails =>
    exact (sameBlock_of_handle rfl h).rxbuf

/-- Settles O42: by the event the step takes. -/
theorem onlyTheirWritersReachTheBuffers : Obligations.OnlyTheirWritersReachTheBuffers := by
  intro s t e es hin h hreset htrans
  rw [step_of_inputs hin] at h
  refine ⟨fun hwrite i => ?_, fun hrx htimeout htransfer i => ?_⟩
  · rw [txbuf_of_handle (s := { s with inputs := es }) hreset htrans hwrite h]
  · rw [rxbuf_of_handle (s := { s with inputs := es }) hreset htrans hrx htimeout htransfer h]

-- The host's writes and the pending input

/-- A host write inside TXBUF of an idle block stores its byte (R50). -/
theorem hostWrite_stores {i : Nat} {s : State} (b : Byte) (hi : i < maxPayload) (hp : s.phase = .idle) :
    hostWrite i b s = .next { s with txbuf := memWrite s.txbuf i b } := by
  simp [hostWrite, hi, hp]

theorem hostWrite_fault {i : Nat} (b : Byte) (hi : maxPayload ≤ i) (s : State) :
    hostWrite i b s = .fault .bufferIndexOutOfRange :=
  if_pos hi

theorem hostWrite_while_busy {i : Nat} {s : State} (b : Byte) (hi : i < maxPayload) (hp : s.phase ≠ .idle) :
    hostWrite i b s = .refused .txbufWriteWhileBusy := by
  simp [hostWrite, hi, busy, hp]

/-- Settles O47: by the index and the phase. -/
theorem hostWritesOneByteOfTxbuf : Obligations.HostWritesOneByteOfTxbuf := by
  intro s i b es hin
  rw [step_of_inputs hin, handle]
  refine ⟨fun hi hp => ⟨memWrite s.txbuf i b, hostWrite_stores b hi hp, fun j => ?_⟩, fun hi => hostWrite_fault b hi _,
    fun hi hp => hostWrite_while_busy b hi hp⟩
  simp [memRead_memWrite, eq_comm]

/-- Settles O49: both events are written out by the model. -/
theorem pendingInputIsAQueue : Obligations.PendingInputIsAQueue :=
  ⟨fun _ _ _ hin => step_of_inputs hin, fun _ _ hin => step_of_inputs hin⟩

end Sys2Proof.Machine
end

section
/-! The statements of 30_encoding.md: the table's decoder and encoder undo each other. -/

namespace Sys2Proof.Machine

/-- A command of a nibble class is the ping request's only in the first class and with the first code (R90). -/
theorem nibbleCommand_eq_zero : ∀ k c : BitVec 4, nibbleCommand k c = 0x00#8 ↔ k = 0#4 ∧ c = 0#4 := by decide

/-- A frame, a ping request written as FRAME.SYS aside, is the class its own command and body are given (R89, R98). -/
theorem frameInstr_of_frameParts {i : Instr} {c : Byte} {f : Body} (h : i.frameParts = some (c, f))
    (hping : notPing i = true) : frameInstr c f = i := by
  cases i with
  | ckinit | ckupd _ | encode _ _ | decode => cases h
  | frameSys c f =>
    cases h
    have hne : c = 0#4 → f.payload ≠ [] := by simpa [notPing, imp_iff_not_or] using hping
    simpa [frameInstr, nibble_fields, nibbleCommand_eq_zero] using hne
  | frameEth c f | frameUdp c f | frameTcp c f | frameRtc c f | frameI2c c f =>
    cases h
    simp [frameInstr, nibble_fields, nibbleCommand_eq_zero]
  | frameUnassigned6 c f =>
    cases h
    simp [frameInstr, unassigned6_fields]
  | frameUnassigned8 c f =>
    cases h
    simp [frameInstr, unassigned8_fields]
  | framePing ck stop => cases h; rfl

/-- The wire bytes of one frame decode to the class of its command (R80, R84). -/
theorem decode_bodyBytes (c : Byte) {f : Body} (hf : f.payload.length ≤ maxPayload) :
    decode (.wire (bodyBytes c f)) = .instr (frameInstr c f) := by
  have hcut : decodeFrame (bodyBytes c f) = .frame (frameInstr c f) [] := by
    simpa using decodeFrame_bodyBytes c f [] hf
  simp only [decode, hcut]

/-- The code of an operation selects it again (R95). -/
theorem decode_encode_operation {i : Instr} (h : i.frameParts = none) : decode (encode i) = .instr i := by
  cases i with
  | ckinit | ckupd _ | encode _ _ | decode => rfl
  | _ => cases h

theorem decode_encode_frame {i : Instr} {c : Byte} {f : Body} (h : i.frameParts = some (c, f))
    (he : i.Encodable = true) : decode (encode i) = .instr i := by
  obtain ⟨-, hping⟩ := Bool.and_eq_true_iff.1 he
  rw [encode_frame h, decode_bodyBytes c (payload_le_of_encodable h he), frameInstr_of_frameParts h hping]

/-- Settles O16: an operation by its code, a frame by its bytes. -/
theorem decodeUndoesEncode : Obligations.DecodeUndoesEncode := by
  intro i he
  cases hparts : i.frameParts with
  | none => exact decode_encode_operation hparts
  | some parts => exact decode_encode_frame hparts he

/-- All four codes of R95. -/
theorem opCode_cases : ∀ op : BitVec 2, op = 0#2 ∨ op = 1#2 ∨ op = 2#2 ∨ op = 3#2 := by decide

/-- Every operation fits its encoding (R95). -/
theorem encodable_decodeStart (op : BitVec 2) (a : Byte) (plen : Nat) : (decodeStart op a plen).Encodable = true := by
  obtain rfl | rfl | rfl | rfl := opCode_cases op <;> rfl

/-- The operation a `start` selects is encoded with the code and the operands it uses (R32, R95). -/
theorem encode_decodeStart (op : BitVec 2) (a : Byte) (plen : Nat) :
    ∃ a' plen', encode (decodeStart op a plen) = .start op a' plen' ∧ (op = 1#2 ∨ op = 2#2 → a' = a) ∧
      (op = 2#2 → plen' = plen) := by
  obtain rfl | rfl | rfl | rfl := opCode_cases op <;> exact ⟨_, _, rfl, by simp, by simp⟩

/-- Settles O17: a `start` by its code, bytes as the one frame they are. -/
theorem encodeUndoesDecode : Obligations.EncodeUndoesDecode := by
  intro e i h
  cases e with
  | start op a plen =>
    obtain rfl : decodeStart op a plen = i := Decoded.instr.inj h
    refine ⟨encodable_decodeStart op a plen, nofun, fun _ _ _ hstart => ?_⟩
    cases hstart
    exact encode_decodeStart op a plen
  | wire bytes =>
    obtain ⟨c, f, rfl, hf, rfl⟩ := decode_wire_eq_instr h
    exact ⟨frameInstr_encodable c hf, fun _ _ => encode_frame (frameInstr_parts c f), nofun⟩

/-- Settles O15: the decoder run on each word. -/
theorem specWordsDecode : Obligations.SpecWordsDecode := by
  unfold Obligations.SpecWordsDecode
  decide

end Sys2Proof.Machine
end

section
/-! The statements of 40_checksum.md: the three rules, the laws of R120 to R122, CKINIT and CKUPD. -/

namespace Sys2Proof.Machine

-- The bit step

/-- The shift and the feedback as one exclusive or (R111). -/
theorem bitStep_eq_xor (a : Byte) : bitStep a = (a <<< 1) ^^^ (if a.msb then ckPoly else 0#8) := by
  unfold bitStep
  split <;> simp

/-- The form of R111 on numbers. -/
theorem bitStep_toNat (a : Byte) :
    (bitStep a).toNat =
      if a.getLsbD 7 then ((a.toNat <<< 1) ^^^ 0x31) &&& 0xFF else (a.toNat <<< 1) &&& 0xFF := by
  have hmask (n : Nat) : n &&& 0xFF = n % 2 ^ 8 := Nat.and_two_pow_sub_one_eq_mod n 8
  simp only [bitStep, BitVec.msb_eq_getLsbD_last, hmask, Nat.xor_mod_two_pow]
  split <;> simp [ckPoly]

/-- The form of R111 on bits: the low seven move up and a 0 enters. -/
theorem bitStep_eq_append (a : Byte) :
    bitStep a = (a.extractLsb' 0 7 ++ 0#1 : BitVec 8) ^^^ (if a.getLsbD 7 then 0x31#8 else 0x00#8) := by
  have hshift : a <<< 1 = (a.extractLsb' 0 7 ++ 0#1 : BitVec 8) := BitVec.shiftLeft_eq_concat_of_lt (by decide)
  rw [bitStep_eq_xor, BitVec.msb_eq_getLsbD_last, hshift]
  rfl

/-- The bit step is linear over exclusive or (R122). -/
theorem bitStep_xor (a b : Byte) : bitStep (a ^^^ b) = bitStep a ^^^ bitStep b := by
  have hfeed : (if (a ^^^ b).msb then ckPoly else 0#8) =
      (if a.msb then ckPoly else 0#8) ^^^ (if b.msb then ckPoly else 0#8) := by
    rw [BitVec.msb_xor]
    cases a.msb <;> cases b.msb <;> decide
  simp only [bitStep_eq_xor, hfeed, BitVec.shiftLeft_xor_distrib]
  ac_rfl

@[simp] theorem bitStep_zero : bitStep 0#8 = 0#8 := rfl

/-- Bit 0 after the step is the high bit before it: a 0 enters, and the feedback constant is odd (R120). -/
theorem bitStep_getLsbD_zero (a : Byte) : (bitStep a).getLsbD 0 = a.msb := by
  rw [bitStep_eq_xor]
  cases a.msb <;> simp [ckPoly]

theorem bitStep_injective : Function.Injective bitStep := by
  intro a b h
  have hmsb : a.msb = b.msb := by rw [← bitStep_getLsbD_zero, h, bitStep_getLsbD_zero]
  have hshift : a <<< 1 = b <<< 1 := by simpa [bitStep_eq_xor, hmsb] using h
  ext i hi
  obtain rfl | hlow : i = 7 ∨ i + 1 < 8 := by omega
  · simpa [BitVec.msb_eq_getLsbD_last] using hmsb
  · simpa [hlow] using congrArg (BitVec.getLsbD · (i + 1)) hshift

-- The byte step

/-- The byte step as R112 words it: one exclusive or, then eight bit steps. -/
theorem byteStep_eq_iterate (a b : Byte) : byteStep a b = bitStep^[8] (a ^^^ b) := rfl

/-- The byte step is linear over exclusive or in both operands at once (R122). -/
theorem byteStep_xor (a b x y : Byte) : byteStep (a ^^^ b) (x ^^^ y) = byteStep a x ^^^ byteStep b y := by
  have hswap : (a ^^^ b) ^^^ (x ^^^ y) = (a ^^^ x) ^^^ (b ^^^ y) := by ac_rfl
  simp only [byteStep, hswap, bitStep_xor]

/-- `T[0] = 0` (R121). -/
@[simp] theorem byteStep_self (a : Byte) : byteStep a a = 0#8 := by
  simp [byteStep]

theorem byteStep_comm (a b : Byte) : byteStep a b = byteStep b a := by
  simp only [byteStep, BitVec.xor_comm]

theorem byteStep_right_injective (a : Byte) : Function.Injective (byteStep a) := fun _ _ h =>
  (BitVec.xor_right_inj a).1 (bitStep_injective.iterate 8 h)

theorem byteStep_left_injective (b : Byte) : Function.Injective fun a => byteStep a b := by
  simpa only [byteStep_comm _ b] using byteStep_right_injective b

-- The checksum

theorem checksumFrom_injective (p : List Byte) : Function.Injective fun a => checksumFrom a p := by
  induction p with
  | nil => exact Function.injective_id
  | cons b p ih => exact ih.comp (byteStep_left_injective b)

/-- R122 from any two initial values. -/
theorem checksumFrom_xor : ∀ {p q : List Byte}, p.length = q.length → ∀ a b : Byte,
    checksumFrom a p ^^^ checksumFrom b q = checksumFrom (a ^^^ b) (List.zipWith (· ^^^ ·) p q)
  | [], [], _, _, _ => rfl
  | x :: p, y :: q, h, a, b => by
    simp only [checksumFrom_cons, List.zipWith_cons_cons, byteStep_xor]
    exact checksumFrom_xor (Nat.succ.inj h) _ _

/-- Settles O6: each rule is a lemma about its function. -/
theorem checksumFollowsItsThreeRules : Obligations.ChecksumFollowsItsThreeRules :=
  ⟨fun a => ⟨bitStep_toNat a, bitStep_eq_append a⟩, byteStep_eq_iterate, checksum_nil, checksum_append⟩

/-- Settles O11: each is injective on a finite type. -/
theorem byteStepIsBijective : Obligations.ByteStepIsBijective :=
  ⟨Finite.injective_iff_bijective.1 bitStep_injective,
    fun b => Finite.injective_iff_bijective.1 (byteStep_left_injective b),
    fun a => Finite.injective_iff_bijective.1 (byteStep_right_injective a)⟩

/-- Settles O12: the accumulators part at the changed byte, and the bytes after it keep them apart. -/
theorem oneChangedByteChangesTheChecksum : Obligations.OneChangedByteChangesTheChecksum := by
  intro p q x y hne h
  simp only [checksum, checksumFrom_append, checksumFrom_cons] at h
  exact hne (byteStep_right_injective _ (checksumFrom_injective q h))

/-- Settles O13: the last step is the byte step of the checksum with itself. -/
theorem checksumResidueIsZero : Obligations.ChecksumResidueIsZero := fun p => by
  rw [checksum_append, byteStep_self]

/-- Settles O14: the two initial values cancel. -/
theorem checksumIsAffine : Obligations.ChecksumIsAffine := by
  intro p q h
  rw [checksum, checksum, checksumFrom_xor h, BitVec.xor_self]

/-- Settles O7: the two sequences and the eight steps, evaluated. -/
theorem checksumHasTheStatedValues : Obligations.ChecksumHasTheStatedValues := by
  unfold Obligations.ChecksumHasTheStatedValues
  decide

-- CKINIT and CKUPD

/-- CKINIT in an idle block, as one update (R116). -/
theorem exec_ckinit_of_idle {s : State} (hp : s.phase = .idle) :
    exec .ckinit s =
      .next { s with acc := ckInit, done := true, err := .none, known := { s.known with acc := true } } := by
  simp [exec, execCkinit, finishWith, hp]

/-- CKUPD in an idle block, as one update (R117). -/
theorem exec_ckupd_of_idle {s : State} (a : Byte) (hp : s.phase = .idle) :
    exec (.ckupd a) s =
      .next { s with acc := byteStep (accOperand s) a, done := true, err := .none, draws := s.draws + 1 } := by
  simp [exec, execCkupd, finishWith, nextDraw, hp]

/-- Settles O8: the update CKINIT is, with the host's read of `acc`. -/
theorem ckinitSetsTheAccumulator : Obligations.CkinitSetsTheAccumulator := by
  refine ⟨fun _ _ => rfl, fun s hp => ⟨_, exec_ckinit_of_idle hp, ?_, rfl, rfl⟩⟩
  simp [heldValue, busy, hp, ckInit]

/-- Settles O9: by whether `acc` holds a value. -/
theorem ckupdUpdatesTheAccumulator : Obligations.CkupdUpdatesTheAccumulator := by
  refine ⟨fun _ _ => rfl, fun s a hp hk => ?_, fun s a hp hk => ⟨_, exec_ckupd_of_idle a hp, ?_, ?_⟩, byteStep_self, ?_⟩
  · rw [exec_ckupd_of_idle a hp, accOperand, if_pos hk]
  · simp [heldValue, hk]
  · simp [accOperand, hk]
  · decide

end Sys2Proof.Machine
end

section
/-! The statements of 41_encoder.md: a frame has one reading, the table of `tx_accept`, an ENCODE sends its frame, and
the transactions that send less. -/

namespace Sys2Proof.Machine

-- Frames

/-- A frame with bytes after it is cut off as that frame (R92). -/
theorem decodeFrame_frame (c : Byte) {p : List Byte} (rest : List Byte) (h : p.length ≤ maxPayload) :
    decodeFrame (frame c p ++ rest) = .frame (frameInstr c ⟨p, checksum p, eof⟩) rest :=
  decodeFrame_bodyBytes c ⟨p, checksum p, eof⟩ rest h

theorem frameInstr_injective {c c' : Byte} {f f' : Body} (h : frameInstr c f = frameInstr c' f') : c = c' ∧ f = f' := by
  simpa [frameInstr_parts] using congrArg Instr.frameParts h

/-- Settles O18: the longer frame is cut where either of the two ends, so they are one. -/
theorem frameIsInjectiveAndPrefixFree : Obligations.FrameIsInjectiveAndPrefixFree := by
  rintro c c' p p' hp hp' ⟨rest, h⟩
  have hcut : Fetched.frame (frameInstr c ⟨p, checksum p, eof⟩) rest =
      .frame (frameInstr c' ⟨p', checksum p', eof⟩) [] := by
    rw [← decodeFrame_frame c rest hp, ← decodeFrame_frame c' [] hp', h, List.append_nil]
  injection hcut with hinstr
  obtain ⟨hc, hbody⟩ := frameInstr_injective hinstr
  exact ⟨hc, congrArg Body.payload hbody⟩

/-- The bytes of a well-formed frame instruction are the frame of its command and payload (R91). -/
theorem bodyBytes_of_wellFormed {i : Instr} {c : Byte} {f : Body} (h : i.frameParts = some (c, f))
    (hw : i.WellFormed = true) : bodyBytes c f = frame c f.payload := by
  simp only [Instr.WellFormed, checksumRight, endRight, h, Bool.and_eq_true, decide_eq_true_eq] at hw
  obtain ⟨⟨-, hck⟩, hstop⟩ := hw
  rw [bodyBytes, hck, hstop, frame]

-- The accepting step

/-- An operation is not started in a busy block (R270). -/
theorem exec_operation_of_busy {i : Instr} {s : State} (hi : i.frameParts = none) (hp : s.phase ≠ .idle) :
    exec i s = .refused .startWhileBusy := by
  cases i with
  | ckinit | ckupd _ | encode _ _ | decode => exact if_neg hp
  | _ => cases hi

theorem exec_encode_of_idle {s : State} (a : Byte) (n : Nat) (hp : s.phase = .idle) :
    exec (.encode a n) s = .next (acceptEncode a n s) :=
  if_pos hp

theorem acceptEncode_of_too_large {n : Nat} (a : Byte) (s : State) (h : n > maxPayload) :
    acceptEncode a n s = finishWith .payloadTooLarge s :=
  if_pos h

theorem acceptEncode_of_fits {n : Nat} (a : Byte) (s : State) (h : n ≤ maxPayload) :
    acceptEncode a n s = beginEncode a n s :=
  if_neg (Nat.not_lt.2 h)

/-- Settles O19: by the payload's length. -/
theorem encodeAcceptingStep : Obligations.EncodeAcceptingStep := by
  refine ⟨fun _ _ => rfl, fun s a n hp hn => ?_, fun s a n hp hn => ?_⟩
  · rw [exec_encode_of_idle a n hp, acceptEncode_of_too_large a s hn, finishWith, hp]
  · rw [exec_encode_of_idle a n hp, acceptEncode_of_fits a s hn, beginEncode, ckInit]

-- The offered byte and its acceptance

/-- Settles O20: by the phase. -/
theorem offeredByteOfEachPhase : Obligations.OfferedByteOfEachPhase := by
  intro s
  refine ⟨fun hp => ?_, fun hp => ?_, fun hp => ?_, fun hp => ?_, fun hp b hb => ?_, fun hp => ?_, fun hp => ?_⟩ <;>
    simp only [offeredByte, hp]
  · rfl
  · rfl
  · rfl
  · rw [txByte, txByteOf, hb, Option.getD_some]
  · rfl

/-- An accepted byte neither reads nor changes what waits to be offered. -/
theorem txStep_withInputs (s : State) (es : List Input) :
    txStep { s with inputs := es } = { txStep s with inputs := es } := by
  rcases s with ⟨phase⟩
  cases phase <;> rfl

/-- A step on `tx_accept` in a phase that offers a byte (R138). -/
theorem step_txAccept {s : State} {es : List Input} (hv : txValid s = true) (hin : s.inputs = .txAccept :: es) :
    step s = .next { txStep s with inputs := es } := by
  rw [step_of_inputs hin, ← txStep_withInputs]
  exact if_pos hv

theorem busy_of_txValid {s : State} (hv : txValid s = true) : s.phase ≠ .idle :=
  fun hp => by simp [hp] at hv

theorem rxWant_of_txValid {s : State} (hv : txValid s = true) : rxWant s = false := by
  cases hp : s.phase <;> simp_all [txValid, rxWant, Phase.sends, Phase.receives]

/-- A `start` has no move in a busy block, whatever it selects (R270). -/
theorem takeStart_of_busy {s : State} (op : BitVec 2) (a : Byte) (n : Nat) (hp : s.phase ≠ .idle) :
    takeStart op a n s = .refused .startWhileBusy := by
  rw [takeStart_eq_exec (.inr (.inr hp)), exec_operation_of_busy (decodeStart_frameParts op a n) hp]

theorem resetValues_resetBlock (s : State) : ResetValues (resetBlock s) := ⟨rfl, rfl, rfl, rfl, fun _ => ⟨rfl, rfl⟩⟩

/-- While the block offers a byte, neither a `start` nor a byte or a timeout of the link has a move, and `reset` does
what it does (R138). -/
theorem step_while_sending {s : State} {e : Input} {es : List Input} (hin : s.inputs = e :: es)
    (hv : txValid s = true) :
    (e.isStart = true → step s = .refused .startWhileBusy) ∧
    (e = .rx ∨ e = .rxTimeout → step s = .refused .rxNotWanted) ∧
    (e = .reset → ∃ t, step s = .next t ∧ ResetValues t) := by
  have hw : rxWant { s with inputs := es } = false := rxWant_of_txValid hv
  rw [step_of_inputs hin]
  refine ⟨fun he => ?_, ?_, ?_⟩
  · cases e with
    | start op a n => exact takeStart_of_busy (s := { s with inputs := es }) op a n (busy_of_txValid hv)
    | _ => cases he
  · rintro (rfl | rfl)
    · simp [handle, takeRx, hw]
    · simp [handle, takeTimeout, hw]
  · rintro rfl
    exact ⟨_, rfl, resetValues_resetBlock _⟩

/-- Settles O21: what has no move, then the rows by the phase. -/
theorem txAcceptTable : Obligations.TxAcceptTable := by
  refine ⟨fun s e es hin hv => step_while_sending hin hv, fun s es hin => ?_⟩
  have hrow (h : s.phase.sends = true) : step s = .next { txStep s with inputs := es } := step_txAccept h hin
  refine ⟨fun hp => ?_, fun hp => ?_, fun hp => ?_, fun hp hl => ?_, fun hp hl => ?_, fun hp hl => ?_, fun hp hl => ?_,
    fun hp => ?_, fun hp => ?_⟩ <;> rw [hrow (by rw [hp]; rfl)] <;> simp only [txStep, hp]
  · rfl
  · rfl
  · rfl
  · rw [if_pos hl]; rfl
  · rw [if_neg hl]; rfl
  · rw [if_pos hl]; rfl
  · rw [if_neg hl]; rfl
  · rfl
  · rfl

-- Runs of accepted bytes

theorem txStep_linkTx_length_le (s : State) : (txStep s).linkTx.length ≤ s.linkTx.length + 1 := by
  cases hp : s.phase <;> simp [txStep, hp]

/-- `n` accepted bytes are at most `n` bytes sent. -/
theorem txRun_linkTx_length_le (n : Nat) (s : State) : (txRun n s).linkTx.length ≤ s.linkTx.length + n := by
  induction n generalizing s with
  | zero => rfl
  | succ n ih =>
    have hstep := txStep_linkTx_length_le s
    have hrest := ih (txStep s)
    rw [txRun_succ]
    omega

/-- Where `n` acceptances send `n` bytes, each shorter run sends a byte with every acceptance too. -/
theorem txRun_linkTx_length_of_le {m n : Nat} {s : State} (hmn : m ≤ n)
    (h : (txRun n s).linkTx.length = s.linkTx.length + n) : (txRun m s).linkTx.length = s.linkTx.length + m := by
  obtain ⟨k, rfl⟩ := Nat.exists_eq_add_of_le hmn
  have hfirst := txRun_linkTx_length_le m s
  have hrest := txRun_linkTx_length_le k (txRun m s)
  rw [txRun_add] at h
  omega

/-- Where some acceptances send a byte each, the first of them finds one offered. -/
theorem txValid_of_txRun_linkTx_length {n : Nat} {s : State}
    (h : (txRun (n + 1) s).linkTx.length = s.linkTx.length + (n + 1)) : txValid s = true := by
  by_contra hv
  rw [txRun_of_not_valid (Bool.eq_false_iff.2 hv)] at h
  omega

/-- `n` events `tx_accept`, where each finds a byte offered, are a run of the encoder. -/
theorem steps_txAccept (n : Nat) {es : List Input} : ∀ s : State, s.inputs = List.replicate n .txAccept ++ es →
    (txRun n { s with inputs := es }).linkTx.length = s.linkTx.length + n →
    steps n s = .next (txRun n { s with inputs := es }) := by
  induction n with
  | zero =>
    intro s hin _
    obtain rfl : s.inputs = es := hin
    rfl
  | succ n ih =>
    intro s hin hlen
    have hv : txValid s = true := txValid_of_txRun_linkTx_length (s := { s with inputs := es }) hlen
    have hfirst := txRun_linkTx_length_of_le (m := 1) (s := { s with inputs := es }) (by omega) hlen
    have hone : (txStep s).linkTx.length = s.linkTx.length + 1 := by
      simpa only [txRun_succ, txRun_zero, txStep_withInputs] using hfirst
    rw [txRun_succ, txStep_withInputs s es] at hlen
    rw [steps_succ (step_txAccept hv hin), txRun_succ, txStep_withInputs s es]
    exact ih _ rfl (hlen.trans (by simp only [hone]; omega))

section

variable {s : State} (hp : s.phase = .eSof) (hi : s.idx = 0#16) (ha : s.acc = ckInit)
include hp hi ha

/-- An ENCODE that has sent nothing yet sends the frame of `cmd` and its payload (R132). -/
theorem txRun_frame_linkTx :
    (txRun (s.len.toNat + 6) s).linkTx = s.linkTx ++ frame s.cmd (txPayload s s.len.toNat) := by
  rw [txRun_frame hp hi ha]

/-- It ends with the registers of R140. -/
theorem txRun_frame_registers :
    EncodeRegisters s.cmd (txPayload s s.len.toNat) (txRun (s.len.toNat + 6) s) := by
  rw [txRun_frame hp hi ha]
  exact ⟨rfl, rfl, rfl, rfl, (txPayload_length s _).symm, rfl, rfl⟩

/-- It sends one byte with each acceptance. -/
theorem txRun_frame_linkTx_length :
    (txRun (s.len.toNat + 6) s).linkTx.length = s.linkTx.length + (s.len.toNat + 6) := by
  rw [txRun_frame_linkTx hp hi ha, List.length_append, frame, wire_length, txPayload_length]

theorem offeredBytes_of_eSof : offeredBytes s = frame s.cmd (txPayload s s.len.toNat) := by
  rw [offeredBytes, txRun_frame_linkTx hp hi ha, List.drop_left]

/-- After `n` acceptances, the first `n` bytes of the frame are sent (R139, R262). -/
theorem txRun_linkTx_eq_take (n : Nat) :
    (txRun n s).linkTx = s.linkTx ++ (frame s.cmd (txPayload s s.len.toNat)).take n := by
  rcases le_total n (s.len.toNat + 6) with hn | hn
  · obtain ⟨k, hk⟩ := Nat.exists_eq_add_of_le hn
    have hlen := txRun_linkTx_length_of_le hn (txRun_frame_linkTx_length hp hi ha)
    have hprefix : (txRun n s).linkTx <+: s.linkTx ++ frame s.cmd (txPayload s s.len.toNat) := by
      rw [← txRun_frame_linkTx hp hi ha, hk, txRun_add]
      exact txRun_linkTx k _
    rw [List.prefix_iff_eq_take.1 hprefix, hlen, List.take_length_add_append]
  · obtain ⟨k, rfl⟩ := Nat.exists_eq_add_of_le hn
    obtain ⟨hidle, -⟩ := txRun_frame_registers hp hi ha
    rw [txRun_add, txRun_of_not_valid (txValid_of_idle hidle), txRun_frame_linkTx hp hi ha, List.take_of_length_le]
    simp [frame]

end

/-- What a run of accepted bytes leaves alone (R54, R133). -/
theorem sendLeaves_txRun (n : Nat) (s : State) : SendLeaves s (txRun n s) := by
  obtain ⟨htx, hrx, -, hdraws, -, -, hrxck, -, hlinkRx, hsession, -, hreadout, hbridge, hreply, hfacade⟩ :=
    txRun_leaves n s
  exact ⟨fun i => ⟨by rw [htx], by rw [hrx]⟩, hlinkRx, hrxck, ⟨hsession, hreadout, hbridge, hreply, hfacade⟩, hdraws⟩

theorem txRun_inputs (n : Nat) (s : State) : (txRun n s).inputs = s.inputs :=
  have ⟨_, _, _, _, _, _, _, _, _, _, hinputs, _⟩ := txRun_leaves n s
  hinputs

-- A whole ENCODE

/-- A step on the `start` of an ENCODE that fits, in an idle block (R135). -/
theorem step_start_encode {s : State} {a : Byte} {n : Nat} {es : List Input} (hp : s.phase = .idle)
    (hn : n ≤ maxPayload) (hin : s.inputs = .start 2#2 a n :: es) :
    step s = .next (beginEncode a n { s with inputs := es }) := by
  rw [step_of_inputs hin, handle, takeStart_eq_exec (.inl (by decide)), ← acceptEncode_of_fits a _ hn]
  exact exec_encode_of_idle (s := { s with inputs := es }) a n hp

theorem beginEncode_len_toNat {n : Nat} (a : Byte) (s : State) (hn : n ≤ maxPayload) :
    (beginEncode a n s).len.toNat = n :=
  (BitVec.toNat_ofNat n 16).trans (Nat.mod_eq_of_lt (Nat.lt_succ_of_le hn))

/-- Settles O22: the accepting step, then the run of the encoder that its `tx_accept`s are. -/
theorem encodeSendsExactlyItsFrame : Obligations.EncodeSendsExactlyItsFrame := by
  intro s a n es hp hn hin
  let u : State := beginEncode a n { s with inputs := es }
  have hlen : u.len.toNat = n := beginEncode_len_toNat a _ hn
  have hcount := txRun_frame_linkTx_length (s := u) rfl rfl rfl
  have hregs := txRun_frame_registers (s := u) rfl rfl rfl
  have hsent := txRun_frame_linkTx (s := u) rfl rfl rfl
  rw [hlen] at hcount hregs hsent
  refine ⟨txRun (n + 6) u, txPayload u n, ?_, payloadOf_txPayload u n, hregs, hsent, sendLeaves_txRun _ u,
    txRun_inputs _ u⟩
  rw [steps_succ (step_start_encode hp hn hin)]
  exact steps_txAccept (n + 6) _ rfl hcount

/-- Settles O35: the frame is what the ENCODE offers, so it is sent. -/
theorem wellFormedFrameIsSent : Obligations.WellFormedFrameIsSent := by
  intro i c f s hi hw hp hs hcmd hlen hholds
  obtain ⟨-, -, hphase⟩ := hs
  simp only [phaseInv, hp] at hphase
  obtain ⟨-, hidx, hacc⟩ := hphase
  have hpayload : txPayload s s.len.toNat = f.payload := hlen ▸ txPayload_of_holds hholds
  have hbytes : bodyBytes c f = frame s.cmd (txPayload s s.len.toNat) := by
    rw [bodyBytes_of_wellFormed hi hw, hcmd, hpayload]
  refine ⟨txRun (s.len.toNat + 6) s, ?_, ?_, ?_, sendLeaves_txRun _ s, txRun_inputs _ s⟩
  · rw [exec_frame hi, passFrame_send hp ((offeredBytes_of_eSof hp hidx hacc).trans hbytes.symm)]
  · rw [← hcmd, ← hpayload]
    exact txRun_frame_registers hp hidx hacc
  · rw [hbytes, txRun_frame_linkTx hp hidx hacc]

-- Transactions that send less

/-- A transaction on an open link in an idle block whose payload does not fit: its request ends in the accepting step
(R131, R199). -/
theorem transceive_of_too_large {s : State} {p : List Byte} (c : Byte) (cut : Option Nat) (resp : List Byte)
    (hp : s.phase = .idle) (hs : s.session ≠ .closed) (h : p.length > maxPayload) :
    transceive c p cut resp s = .next
      { finishWith .payloadTooLarge (discard s) with bridge := some (.failed .payloadTooLarge) } := by
  have hreq : beginRequest c p s = finishWith .payloadTooLarge (discard s) := by
    rw [beginRequest, if_neg (Nat.not_le.2 h), acceptEncode_of_too_large c _ h]
  unfold transceive
  split
  · exact absurd ‹_› hs
  · rw [if_neg (by simp [hp]), hreq]
    rfl

/-- A transaction on an open link in an idle block whose write fails (R139, R199). -/
theorem transceive_of_cut {s : State} {p : List Byte} (c : Byte) (n : Nat) (resp : List Byte) (hp : s.phase = .idle)
    (hs : s.session ≠ .closed) (h : p.length ≤ maxPayload) :
    transceive c p (some n) resp s = .next (failWrite n (beginRequest c p s)) := by
  have hbusy : busy (beginRequest c p s) = true := by rw [beginRequest_of_fits s h]; rfl
  unfold transceive
  split
  · exact absurd ‹_› hs
  · simp [hp, hbusy]

/-- Settles O53: the accepting step of its ENCODE ends it. -/
theorem oversizeTransactionSendsNothing : Obligations.OversizeTransactionSendsNothing := by
  intro s c p resp cut es hp hs h hin
  have hstep := transceive_of_too_large (s := { s with inputs := es }) c cut resp hp hs h
  exact ⟨_, (step_of_inputs hin).trans hstep, rfl, rfl, rfl, fun _ => ⟨rfl, rfl⟩, rfl⟩

/-- A request whose write fails after `n` bytes has sent `n` bytes of its frame (R139, R262). -/
theorem txRun_beginRequest_linkTx {p : List Byte} (c : Byte) (n : Nat) (s : State) (h : p.length ≤ maxPayload) :
    (txRun n (beginRequest c p s)).linkTx = s.linkTx ++ (frame c p).take n := by
  rw [beginRequest_of_fits s h, txRun_linkTx_eq_take rfl rfl rfl, beginEncode_len_toNat c _ h,
    txPayload_of_holds (memHolds_memLoad s.txbuf p)]
  rfl

theorem failWrite_resetValues (n : Nat) (s : State) : ResetValues (failWrite n s) := resetValues_resetBlock (txRun n s)

/-- Settles O54: the request up to the failure, then the host's reset; alone, by whether a byte is offered. -/
theorem failedWriteSendsAPrefix : Obligations.FailedWriteSendsAPrefix := by
  refine ⟨fun s c p resp n es hp hs h hin => ?_, fun s es hin => ?_⟩
  · let u : State := beginRequest c p { s with inputs := es }
    obtain ⟨-, -, -, hinputs, -⟩ := beginRequest_leaves c p { s with inputs := es }
    refine ⟨failWrite n u, ?_, txRun_beginRequest_linkTx c n _ h, rfl, rfl, failWrite_resetValues n u,
      (txRun_inputs n u).trans hinputs⟩
    rw [step_of_inputs hin]
    exact transceive_of_cut (s := { s with inputs := es }) c n resp hp hs h
  · rw [step_of_inputs hin]
    exact ⟨fun hv => if_pos hv, fun hv => if_neg (Bool.eq_false_iff.1 hv)⟩

end Sys2Proof.Machine
end

section
/-! The statements of 42_decoder.md: DecodeA by what stands at the front of the stream, the tables of `rx` and
`rx_timeout`, a DECODE against Level A, and frames that meet a waiting DECODE. -/

namespace Sys2Proof.Machine

-- DecodeA by the front of the stream

@[simp] theorem decodeA_nil : decodeA [] = (.error .timeout, 0) := rfl

theorem decodeA_of_wrong_start {b : Byte} (h : b ≠ sof) (r : List Byte) :
    decodeA (b :: r) = (.error .badStartByte, 1) := by
  simp [decodeA, h]

/-- Bytes that begin a frame and end before its declared end, or before that is known (R161). -/
theorem decodeA_of_short {r : List Byte}
    (h : 4 ≤ (sof :: r).length → (sof :: r).length < declaredLen (sof :: r) + 6) :
    decodeA (sof :: r) = (.error .truncated, (sof :: r).length) := by
  by_cases h4 : 4 ≤ (sof :: r).length
  · simp only [decodeA, if_pos (h h4)]
    simp
  · simp only [decodeA, if_pos (Nat.not_le.1 h4)]
    simp

/-- Bytes that hold a whole frame (R155 to R158): the end byte decides before the checksum byte (D14). -/
theorem decodeA_wire (c : Byte) {p : List Byte} (ck stop : Byte) (later : List Byte) (h : p.length ≤ maxPayload) :
    decodeA (wire c p ck stop ++ later) =
      (if stop ≠ eof then .error .badEndByte
       else if ck ≠ checksum p then .error .checksumMismatch
       else .ok c p, p.length + 6) := by
  have hbytes : wire c p ck stop ++ later =
      sof :: c :: hi8 (lenOf p) :: lo8 (lenOf p) :: (p ++ ck :: stop :: later) := by simp [wire_eq]
  rw [hbytes, decodeA_header, joinLen_hi8_lo8, lenOf_toNat h, if_neg (by simp)]
  simp only [List.take_left, show (p ++ ck :: stop :: later).getD p.length 0#8 = ck by simp,
    show (p ++ ck :: stop :: later).getD (p.length + 1) 0#8 = stop by simp]
  split
  · rfl
  · split <;> rfl

theorem decodeA_wire_of_wrong_end (c : Byte) {p : List Byte} (ck : Byte) {stop : Byte} (later : List Byte)
    (h : p.length ≤ maxPayload) (hstop : stop ≠ eof) :
    decodeA (wire c p ck stop ++ later) = (.error .badEndByte, p.length + 6) := by
  rw [decodeA_wire c ck stop later h, if_pos hstop]

theorem decodeA_wire_of_wrong_checksum (c : Byte) {p : List Byte} {ck : Byte} (later : List Byte)
    (h : p.length ≤ maxPayload) (hck : ck ≠ checksum p) :
    decodeA (wire c p ck eof ++ later) = (.error .checksumMismatch, p.length + 6) := by
  rw [decodeA_wire c ck eof later h, if_neg (by simp), if_pos hck]

/-- Settles O30: neither check of DecodeA fails. -/
theorem decodeOfFrameGivesItBack : Obligations.DecodeOfFrameGivesItBack := by
  intro c p later h
  rw [frame, decodeA_wire c _ _ later h, if_neg (by simp), if_neg (by simp)]

/-- Settles O32: by the changed field; a changed payload byte changes the checksum (R120). -/
theorem corruptedFieldResults : Obligations.CorruptedFieldResults := by
  intro c p later h
  refine ⟨fun b hb => decodeA_of_wrong_start hb _, fun c' => decodeOfFrameGivesItBack c' p later h, ?_,
    fun k hk => decodeA_wire_of_wrong_checksum c later h hk, fun k e he => decodeA_wire_of_wrong_end c k later h he⟩
  rintro q r x y rfl hne
  have hlen : (q ++ y :: r).length = (q ++ x :: r).length := by simp
  rw [← hlen]
  exact decodeA_wire_of_wrong_checksum c later (hlen ▸ h) (oneChangedByteChangesTheChecksum q r x y hne)

-- The declared length, and what a stream can begin with

/-- The length is known after the fourth byte (R92). -/
theorem declaredLen_append {bs : List Byte} (h : 4 ≤ bs.length) (later : List Byte) :
    declaredLen (bs ++ later) = declaredLen bs := by
  rw [declaredLen, declaredLen, List.getD_append _ _ _ _ (by omega), List.getD_append _ _ _ _ (by omega)]

theorem declaredLen_wire (c : Byte) {p : List Byte} (ck stop : Byte) (h : p.length ≤ maxPayload) :
    declaredLen (wire c p ck stop) = p.length := by
  simp [declaredLen, wire_eq, lenOf_toNat h]

/-- Bytes with a length field that the table's decoder rejects end before the frame they declare does (R92). -/
theorem short_of_rejected {r : List Byte} {why : Reject} (hd : decodeFrame (sof :: r) = .rejected why)
    (h4 : 4 ≤ (sof :: r).length) : (sof :: r).length < declaredLen (sof :: r) + 6 := by
  match r with
  | [] | [_] | [_, _] => simp at h4
  | c :: hi :: lo :: body =>
    have hL : declaredLen (sof :: c :: hi :: lo :: body) = (joinLen hi lo).toNat := by simp [declaredLen]
    by_contra hlong
    have htwo : 2 ≤ (body.drop (joinLen hi lo).toNat).length := by
      simp only [hL, List.length_cons, List.length_drop] at hlong ⊢
      omega
    match hcut : body.drop (joinLen hi lo).toNat, htwo with
    | ck :: stop :: later, _ => simp [decodeFrame, cutBody, hcut] at hd

/-- A stream is empty, or begins with a wrong byte, or holds less than the frame it begins, or a whole frame (R161). -/
theorem stream_cases (bs : List Byte) :
    bs = [] ∨ (∃ b r, bs = b :: r ∧ b ≠ sof) ∨
    (∃ r, bs = sof :: r ∧ (4 ≤ bs.length → bs.length < declaredLen bs + 6)) ∨
    ∃ c f later, f.payload.length ≤ maxPayload ∧ bs = bodyBytes c f ++ later := by
  cases hd : decodeFrame bs with
  | frame i later =>
    obtain ⟨c, f, -, hf, hbs⟩ := decodeFrame_eq_frame hd
    exact .inr (.inr (.inr ⟨c, f, later, hf, hbs⟩))
  | rejected why =>
    match bs with
    | [] => exact .inl rfl
    | b :: r =>
      by_cases hb : b = sof
      · subst hb
        exact .inr (.inr (.inl ⟨r, rfl, short_of_rejected hd⟩))
      · exact .inr (.inl ⟨b, r, rfl, hb⟩)

/-- Settles O29: by what the stream begins with. -/
theorem decodeConsumesTheStatedBytes : Obligations.DecodeConsumesTheStatedBytes := by
  intro bs r n h
  obtain rfl | ⟨b, t, rfl, hb⟩ | ⟨t, rfl, hshort⟩ | ⟨c, ⟨p, ck, stop⟩, later, hf, rfl⟩ := stream_cases bs
  · cases h
    simp
  · rw [decodeA_of_wrong_start hb] at h
    cases h
    simp [decodeA_of_wrong_start hb]
  · rw [decodeA_of_short hshort] at h
    cases h
    simpa using hshort
  · have hlen : declaredLen (bodyBytes c ⟨p, ck, stop⟩ ++ later) = p.length := by
      rw [declaredLen_append (by simp [bodyBytes]), bodyBytes, declaredLen_wire c ck stop hf]
    have htake : (wire c p ck stop ++ later).take (p.length + 6) = wire c p ck stop := by
      rw [← wire_length c p ck stop, List.take_left]
    rw [bodyBytes, decodeA_wire c ck stop later hf] at h
    obtain ⟨hr, rfl⟩ := Prod.mk.inj h
    have hwhole : r = .error .badEndByte ∨ r = .error .checksumMismatch ∨ ∃ c p, r = .ok c p := by
      rw [← hr]
      split_ifs <;> simp
    refine ⟨by simp [bodyBytes], ?_, ?_, ?_, fun _ => by rw [hlen], fun _ _ more => ?_⟩
    · rintro rfl; simp at hwhole
    · rintro rfl; simp at hwhole
    · rintro rfl; simp at hwhole
    · rw [bodyBytes, htake, decodeA_wire c ck stop more hf, hr]

theorem decodeA_consumed_le (bs : List Byte) : (decodeA bs).2 ≤ bs.length :=
  have ⟨hle, _⟩ := decodeConsumesTheStatedBytes bs (decodeA bs).1 (decodeA bs).2 rfl
  hle

/-- Settles O31: where a front part of the frame has a length field, that is the frame's, and the part is shorter. -/
theorem properPrefixIsTruncated : Obligations.ProperPrefixIsTruncated := by
  rintro c p q hp ⟨rest, hrest⟩ hne
  cases q with
  | nil => rfl
  | cons b r =>
    rw [if_neg (List.cons_ne_nil b r)]
    obtain rfl : b = sof := by
      rw [frame, wire_eq] at hrest
      exact (List.cons.inj hrest).1
    refine decodeA_of_short fun h4 => ?_
    have hprefix : sof :: r <+: frame c p := ⟨rest, hrest⟩
    have hlen := hprefix.length_le.lt_of_ne fun he => hne (hprefix.eq_of_length he)
    rw [← declaredLen_append h4 rest, hrest, frame, declaredLen_wire c _ _ hp]
    simpa [frame] using hlen

-- The accepting step, and the tables of `rx` and `rx_timeout`

/-- DECODE in an idle block, whatever the session (R162). -/
theorem exec_decode_of_idle {s : State} (hp : s.phase = .idle) : exec .decode s = .next (acceptDecode s) :=
  if_pos hp

/-- Settles O24: the update the accepting step is. -/
theorem decodeAcceptingStep : Obligations.DecodeAcceptingStep :=
  ⟨fun _ _ => rfl, fun _ hp => exec_decode_of_idle hp⟩

/-- A byte step neither reads nor changes what waits to be offered. -/
theorem rxStep_withInputs (b : Byte) (s : State) (es : List Input) :
    rxStep b { s with inputs := es } = { rxStep b s with inputs := es } := by
  cases hp : s.phase <;> simp only [rxStep, hp, endStep] <;> (repeat' split) <;> rfl

/-- The oldest pending byte leaves LINK_RX where the block wants one (R34, R52). -/
theorem takeRx_of_pending {s : State} {b : Byte} {rest : List Byte} (hw : rxWant s = true)
    (hrx : s.linkRx = b :: rest) : takeRx s = .next { rxStep b s with linkRx := rest } := by
  simp only [takeRx, hw, if_true, hrx, rxStep_withLinkRx]

/-- A step on `rx` in a phase that wants a byte, with one pending (R163). -/
theorem step_rx {s : State} {b : Byte} {rest : List Byte} {es : List Input} (hw : rxWant s = true)
    (hin : s.inputs = .rx :: es) (hrx : s.linkRx = b :: rest) :
    step s = .next { rxStep b s with linkRx := rest, inputs := es } := by
  rw [step_of_inputs hin, handle, takeRx_of_pending (s := { s with inputs := es }) hw hrx, rxStep_withInputs]

/-- A timeout neither reads nor changes what waits to be offered. -/
theorem timeoutStep_withInputs (s : State) (es : List Input) :
    timeoutStep { s with inputs := es } = { timeoutStep s with inputs := es } := by
  rcases s with ⟨phase⟩
  cases phase <;> rfl

/-- A step on `rx_timeout` in a phase that wants a byte (R164). -/
theorem step_rxTimeout {s : State} {es : List Input} (hw : rxWant s = true) (hin : s.inputs = .rxTimeout :: es) :
    step s = .next { timeoutStep s with inputs := es } := by
  rw [step_of_inputs hin, handle, ← timeoutStep_withInputs]
  exact if_pos hw

theorem busy_of_rxWant {s : State} (hw : rxWant s = true) : s.phase ≠ .idle :=
  fun hp => by simp [hp] at hw

theorem txValid_of_rxWant {s : State} (hw : rxWant s = true) : txValid s = false := by
  by_contra hv
  simp [rxWant_of_txValid (Bool.not_eq_false _ ▸ hv)] at hw

/-- While the block wants a byte, neither a `start` nor a `tx_accept` has a move, and `reset` does what it does
(R163). -/
theorem step_while_receiving {s : State} {e : Input} {es : List Input} (hin : s.inputs = e :: es)
    (hw : rxWant s = true) :
    (e.isStart = true → step s = .refused .startWhileBusy) ∧ (e = .txAccept → step s = .refused .txNotOffered) ∧
    (e = .reset → ∃ t, step s = .next t ∧ ResetValues t) := by
  have hv : txValid { s with inputs := es } = false := txValid_of_rxWant hw
  rw [step_of_inputs hin]
  refine ⟨fun he => ?_, ?_, ?_⟩
  · cases e with
    | start op a n => exact takeStart_of_busy (s := { s with inputs := es }) op a n (busy_of_rxWant hw)
    | _ => cases he
  · rintro rfl
    simp [handle, takeAccept, hv]
  · rintro rfl
    exact ⟨_, rfl, resetValues_resetBlock _⟩

theorem endStep_of_wrong_end {b : Byte} (h : b ≠ eof) (s : State) : endStep b s = failDecode .badEndByte s :=
  if_pos h

theorem endStep_of_wrong_checksum {s : State} (h : s.rxck ≠ s.acc) :
    endStep eof s = failDecode .checksumMismatch s := by
  rw [endStep, if_neg (not_not_intro rfl), if_pos h]

theorem endStep_of_right {s : State} (h : s.rxck = s.acc) : endStep eof s = passDecode s := by
  rw [endStep, if_neg (not_not_intro rfl), if_neg (not_not_intro h)]

/-- Settles O25: what has no move, then the rows by the phase. -/
theorem rxTable : Obligations.RxTable := by
  refine ⟨fun s e es hin hw => step_while_receiving hin hw, fun s b rest es hin hrx => ?_⟩
  have hrow (h : s.phase.receives = true) : step s = .next { rxStep b s with linkRx := rest, inputs := es } :=
    step_rx h hin hrx
  have hstored (i : Nat) : memRead (memWrite s.rxbuf s.idx.toNat b) i =
      if i = s.idx.toNat then some b else memRead s.rxbuf i := by simp [memRead_memWrite, eq_comm]
  refine ⟨fun hp hb => ?_, fun hp hb => ?_, fun hp => ?_, fun hp => ?_, fun hp hl => ?_, fun hp hl => ?_,
    fun hp hl => ⟨memWrite s.rxbuf s.idx.toNat b, ?_, hstored⟩,
    fun hp hl => ⟨memWrite s.rxbuf s.idx.toNat b, ?_, hstored⟩, fun hp => ?_, fun hp hb => ?_, fun hp hb hck => ?_,
    fun hp hb hck => ⟨memBelow s.rxbuf s.len.toNat, ?_, memRead_memBelow s.rxbuf s.len.toNat⟩⟩ <;>
    rw [hrow (by rw [hp]; rfl)] <;> simp only [rxStep, hp]
  · rw [if_pos (c := b = sof) hb]
  · rw [if_neg (c := b = sof) hb]; rfl
  · rfl
  · rw [if_pos (c := joinLen (hi8 s.len) b = 0#16) hl]; rfl
  · rw [if_neg (c := joinLen (hi8 s.len) b = 0#16) hl]; rfl
  · rw [if_pos hl]
  · rw [if_neg hl]
  · rw [endStep_of_wrong_end hb]; rfl
  · rw [hb, ← eof, endStep_of_wrong_checksum hck]; rfl
  · rw [hb, ← eof, endStep_of_right hck]; rfl

/-- Settles O26: by the phase. -/
theorem rxTimeoutTable : Obligations.RxTimeoutTable := by
  intro s es hin
  have hrow (h : s.phase.receives = true) : step s = .next { timeoutStep s with inputs := es } :=
    step_rxTimeout h hin
  refine ⟨fun hp => ?_, fun hp => ?_⟩
  · rw [hrow (by rw [hp]; rfl)]
    simp only [timeoutStep, hp]
    rfl
  · simp only [List.mem_cons, List.not_mem_nil, or_false] at hp
    rcases hp with hp | hp | hp | hp | hp | hp <;> rw [hrow (by rw [hp]; rfl)] <;> simp only [timeoutStep, hp] <;> rfl

-- A whole DECODE

/-- What a DECODE whose reads are all answered leaves alone (R54, R150). -/
theorem receiveLeaves_answerAll (s : State) : ReceiveLeaves s (answerAll s) := by
  obtain ⟨htx, hencodes, hdraws, hlinkTx, hsession, -, hreadout, hbridge, hreply, hfacade⟩ := answerAll_leaves s
  exact ⟨fun i => by rw [htx], hlinkTx, ⟨hsession, hreadout, hbridge, hreply, hfacade⟩, hdraws, hencodes⟩

theorem answerAll_inputs (s : State) : (answerAll s).inputs = s.inputs :=
  have ⟨_, _, _, _, _, hinputs, _⟩ := answerAll_leaves s
  hinputs

/-- Delivered bytes that are not taken join LINK_RX, and no others do. -/
theorem deliver_linkRx_length_le (bs : List Byte) (s : State) :
    (deliver bs s).linkRx.length ≤ bs.length + s.linkRx.length := by
  induction bs generalizing s with
  | nil => simp
  | cons b bs ih =>
    cases hw : rxWant s with
    | true =>
      obtain ⟨-, -, -, -, hrx, -⟩ := rxStep_frame b s
      have hrest := ih (rxStep b s)
      rw [hrx] at hrest
      rw [deliver_cons hw, List.length_cons]
      omega
    | false => simp [deliver_of_not_want hw]

/-- Delivered bytes neither read nor change what waits to be offered. -/
theorem deliver_withInputs (bs : List Byte) (s : State) (es : List Input) :
    deliver bs { s with inputs := es } = { deliver bs s with inputs := es } := by
  induction bs generalizing s with
  | nil => rfl
  | cons b bs ih =>
    cases hw : rxWant s with
    | true => rw [deliver_cons hw, deliver_cons (s := { s with inputs := es }) hw, rxStep_withInputs, ih]
    | false => rw [deliver_of_not_want hw, deliver_of_not_want (s := { s with inputs := es }) hw]

/-- The block once the link has delivered what is pending for as long as a byte is wanted. -/
def deliverPending (s : State) : State := deliver s.linkRx { s with linkRx := [] }

theorem answerAll_eq (s : State) :
    answerAll s = if rxWant (deliverPending s) then timeoutStep (deliverPending s) else deliverPending s := rfl

theorem answerAll_linkRx (s : State) : (answerAll s).linkRx = (deliverPending s).linkRx := by
  obtain ⟨-, -, -, -, hrx, -⟩ := timeoutStep_frame (deliverPending s)
  rw [answerAll_eq]
  split
  · exact hrx
  · rfl

theorem deliverPending_withInputs (s : State) (es : List Input) :
    deliverPending { s with inputs := es } = { deliverPending s with inputs := es } :=
  deliver_withInputs s.linkRx { s with linkRx := [] } es

theorem deliverPending_of_not_want {s : State} (hw : rxWant s = false) : deliverPending s = s := by
  rw [deliverPending, deliver_of_not_want (s := { s with linkRx := [] }) hw]
  simp

theorem deliverPending_of_want {s : State} {b : Byte} {rest : List Byte} (hw : rxWant s = true)
    (hrx : s.linkRx = b :: rest) : deliverPending s = deliverPending { rxStep b s with linkRx := rest } := by
  rw [deliverPending, hrx, deliver_cons (s := { s with linkRx := [] }) hw, rxStep_withLinkRx]
  rfl

/-- Where a byte is pending and wanted, fewer are pending afterwards. -/
theorem deliverPending_linkRx_length_lt {s : State} {b : Byte} {rest : List Byte} (hw : rxWant s = true)
    (hrx : s.linkRx = b :: rest) : (deliverPending s).linkRx.length < s.linkRx.length := by
  have hle : (deliverPending { rxStep b s with linkRx := rest }).linkRx.length ≤ rest.length :=
    deliver_linkRx_length_le rest { rxStep b s with linkRx := [] }
  rw [deliverPending_of_want hw hrx, hrx, List.length_cons]
  omega

/-- Where nothing of what is pending is taken, nothing happens. -/
theorem deliverPending_of_none_taken {s : State} (h : (deliverPending s).linkRx = s.linkRx) : deliverPending s = s := by
  cases hw : rxWant s with
  | false => exact deliverPending_of_not_want hw
  | true =>
    cases hrx : s.linkRx with
    | nil => rw [deliverPending, hrx, deliver_nil, ← hrx]
    | cons b rest => exact absurd (congrArg List.length h) (deliverPending_linkRx_length_lt hw hrx).ne

/-- `n` events `rx`, where `n` of the pending bytes are taken, are the delivery of what is pending (R64, R167). -/
theorem steps_rx (n : Nat) {es : List Input} : ∀ s : State, s.inputs = List.replicate n .rx ++ es →
    n ≤ s.linkRx.length → (deliverPending s).linkRx = s.linkRx.drop n →
    steps n s = .next { deliverPending s with inputs := es } := by
  induction n with
  | zero =>
    intro s hin _ htaken
    obtain rfl : s.inputs = es := hin
    rw [deliverPending_of_none_taken htaken]
    rfl
  | succ n ih =>
    intro s hin hn htaken
    obtain ⟨b, rest, hrx⟩ := List.exists_cons_of_length_pos (Nat.zero_lt_of_lt hn)
    have hw : rxWant s = true := by
      by_contra hw
      have hlen := congrArg List.length htaken
      rw [deliverPending_of_not_want (Bool.eq_false_iff.2 hw), List.length_drop] at hlen
      omega
    rw [steps_succ (step_rx hw hin hrx), deliverPending_of_want hw hrx]
    rw [deliverPending_of_want hw hrx, hrx, List.drop_succ_cons] at htaken
    have hrest := ih { rxStep b s with linkRx := rest, inputs := List.replicate n .rx ++ es } rfl
      (by simpa [hrx] using hn)
    rw [deliverPending_withInputs { rxStep b s with linkRx := rest }] at hrest
    exact hrest htaken

theorem endStep_err (b : Byte) (s : State) : (endStep b s).err ≠ .timeout ∧ (endStep b s).err ≠ .truncated := by
  unfold endStep
  (repeat' split) <;> exact ⟨by simp, by simp⟩

/-- A byte that ends a DECODE, a wrong start byte or an end byte, ends it with no result of a timeout (R163). -/
theorem rxStep_err_of_ends {b : Byte} {s : State} (hw : rxWant s = true) (hends : rxWant (rxStep b s) = false) :
    (rxStep b s).err ≠ .timeout ∧ (rxStep b s).err ≠ .truncated := by
  cases hp : s.phase with
  | dSof =>
    by_cases hb : b = sof
    · simp [rxStep, hp, hb, rxWant, Phase.receives] at hends
    · simp [rxStep, hp, hb]
  | dEof =>
    simp only [rxStep, hp]
    exact endStep_err b s
  | dCmd | dLenh | dCk => simp [rxStep, hp, rxWant, Phase.receives] at hends
  | dLenl | dPay =>
    simp only [rxStep, hp, rxWant] at hends
    split at hends <;> cases hends
  | idle | eSof | eCmd | eLenh | eLenl | ePay | eCk | eEof => simp [rxWant, hp, Phase.receives] at hw

/-- Nor do delivered bytes. -/
theorem deliver_err_of_ends (bs : List Byte) {s : State} (hw : rxWant s = true)
    (hends : rxWant (deliver bs s) = false) : (deliver bs s).err ≠ .timeout ∧ (deliver bs s).err ≠ .truncated := by
  induction bs generalizing s with
  | nil => simp [hw] at hends
  | cons b bs ih =>
    rw [deliver_cons hw] at hends ⊢
    cases hw' : rxWant (rxStep b s) with
    | true => exact ih hw' hends
    | false => rw [deliver_of_not_want hw']; exact rxStep_err_of_ends hw hw'

/-- A timeout that has a move reports that it was one (R164). -/
theorem timeoutStep_err {s : State} (hw : rxWant s = true) :
    (timeoutStep s).err = .timeout ∨ (timeoutStep s).err = .truncated := by
  cases hp : s.phase with
  | dSof | dCmd | dLenh | dLenl | dPay | dCk | dEof => simp [timeoutStep, hp]
  | idle | eSof | eCmd | eLenh | eLenl | ePay | eCk | eEof => simp [rxWant, hp, Phase.receives] at hw

theorem rxWant_of_dSof {s : State} (hp : s.phase = .dSof) : rxWant s = true := by
  simp [rxWant, hp, Phase.receives]

theorem DecodeResult.code_eq_iff {e : ErrCode} (he : e ≠ .none) (r : DecodeResult) : r.code = e ↔ r = .error e := by
  cases r with
  | ok c p => simp [code, he.symm]
  | error e' => simp [code]

/-- What is pending does not last exactly where DecodeA says that the reads time out (R161). -/
theorem rxWant_deliverPending_iff {s : State} (hp : s.phase = .dSof) :
    rxWant (deliverPending s) = true ↔
      (decodeA s.linkRx).1 = .error .timeout ∨ (decodeA s.linkRx).1 = .error .truncated := by
  obtain ⟨⟨-, -, herr, -⟩, -⟩ := answerAll_levelA hp
  rw [← DecodeResult.code_eq_iff (by decide), ← DecodeResult.code_eq_iff (by decide), ← herr, answerAll_eq]
  cases hw : rxWant (deliverPending s) with
  | true => simpa using timeoutStep_err hw
  | false =>
    have herr := deliver_err_of_ends s.linkRx (s := { s with linkRx := [] }) (rxWant_of_dSof hp) hw
    exact iff_of_false Bool.false_ne_true (not_or.2 herr)

theorem steps_add {m : Nat} {s t : State} (h : steps m s = .next t) (n : Nat) : steps (m + n) s = steps n t := by
  induction m generalizing s with
  | zero => cases h; rw [Nat.zero_add]
  | succ m ih =>
    rw [Nat.succ_add, steps]
    rw [steps] at h
    split at h
    · exact ih h
    · cases h
    · cases h

/-- The link's answers to the reads of a DECODE, one by one, are its answers at once (R61, R168). -/
theorem steps_linkAnswers {s : State} {es : List Input} (hp : s.phase = .dSof)
    (hin : s.inputs = linkAnswers s.linkRx ++ es) :
    steps (linkAnswers s.linkRx).length s = .next { answerAll s with inputs := es } := by
  obtain ⟨-, hrest⟩ := answerAll_levelA hp
  rw [answerAll_linkRx] at hrest
  rw [linkAnswers, List.append_assoc] at hin
  have hbytes := steps_rx _ s hin (decodeA_consumed_le s.linkRx) hrest
  rw [linkAnswers, List.length_append, List.length_replicate, steps_add hbytes, answerAll_eq]
  simp only [← rxWant_deliverPending_iff hp]
  cases hw : rxWant (deliverPending s) with
  | true =>
    have hlate := step_rxTimeout (s := { deliverPending s with inputs := .rxTimeout :: es }) hw rfl
    rw [timeoutStep_withInputs (deliverPending s)] at hlate
    exact steps_succ hlate 0
  | false => simp [steps]

/-- A step on the `start` of a DECODE, in an idle block on an open link (R162). -/
theorem step_start_decode {s : State} {a : Byte} {n : Nat} {es : List Input} (hp : s.phase = .idle)
    (hs : s.session ≠ .closed) (hin : s.inputs = .start 3#2 a n :: es) :
    step s = .next (acceptDecode { s with inputs := es }) := by
  rw [step_of_inputs hin, handle, takeStart_eq_exec (s := { s with inputs := es }) (.inr (.inl hs))]
  exact exec_decode_of_idle (s := { s with inputs := es }) hp

/-- Settles O27: the accepting step, then the answers, which hand back what Level A says. -/
theorem decodeAgreesWithLevelA : Obligations.DecodeAgreesWithLevelA := by
  intro s a plen es hp hs hin
  let u : State := acceptDecode { s with inputs := linkAnswers s.linkRx ++ es }
  obtain ⟨hresult, hrest⟩ := answerAll_levelA (s := u) rfl
  refine ⟨{ answerAll u with inputs := es }, ?_, hresult, hrest, receiveLeaves_answerAll u, rfl⟩
  rw [steps_succ (step_start_decode hp hs hin)]
  exact steps_linkAnswers (s := u) rfl rfl

-- A frame that meets a waiting DECODE

/-- A frame that fits its encoding, where a DECODE waits for its start byte, is DecodeA of its bytes (R88, R150). -/
theorem exec_frame_decodes {i : Instr} {c : Byte} {f : Body} {s : State} (hi : i.frameParts = some (c, f))
    (he : i.Encodable = true) (hp : s.phase = .dSof) {r : DecodeResult}
    (hr : decodeA (bodyBytes c f ++ s.linkRx) = (r, f.payload.length + 6)) :
    ∃ t, exec i s = .next t ∧ DecodeLeaves r t ∧ t.linkRx = s.linkRx ∧ ReceiveLeaves s t ∧ t.inputs = s.inputs := by
  let u : State := { s with linkRx := bodyBytes c f ++ s.linkRx }
  have hfetch : decodeFrame u.linkRx = .frame (frameInstr c f) s.linkRx :=
    decodeFrame_bodyBytes c f s.linkRx (payload_le_of_encodable hi he)
  have hrun : exec i s = .next (answerAll u) := by
    rw [← transfer_of_dSof (s := u) hp, transfer_of_fetched (s := u) hp hfetch, exec_frame hi,
      exec_frame (frameInstr_parts c f)]
  obtain ⟨hresult, hrest⟩ := answerAll_levelA (s := u) hp
  rw [show decodeA u.linkRx = _ from hr] at hresult hrest
  refine ⟨answerAll u, hrun, hresult, ?_, receiveLeaves_answerAll u, answerAll_inputs u⟩
  rw [hrest, ← wire_length c f.payload f.ck f.stop]
  exact List.drop_left

theorem encodable_of_wellFormed {i : Instr} (hw : i.WellFormed = true) : i.Encodable = true := by
  simp only [Instr.WellFormed, Bool.and_eq_true] at hw
  obtain ⟨⟨he, -⟩, -⟩ := hw
  exact he

/-- Settles O33: DecodeA gives back what the frame holds. -/
theorem wellFormedFrameIsReceived : Obligations.WellFormedFrameIsReceived := by
  intro i c f s hi hw hp
  have he := encodable_of_wellFormed hw
  refine exec_frame_decodes hi he hp ?_
  rw [bodyBytes_of_wellFormed hi hw]
  exact decodeOfFrameGivesItBack c f.payload s.linkRx (payload_le_of_encodable hi he)

/-- Settles O34: by the end byte; DecodeA gives the error of each. -/
theorem illFormedFrameIsRejected : Obligations.IllFormedFrameIsRejected := by
  intro i c f s hi he hp
  have hf := payload_le_of_encodable hi he
  refine ⟨fun hstop => exec_frame_decodes hi he hp ?_, fun hstop hck => exec_frame_decodes hi he hp ?_⟩
  · exact decodeA_wire_of_wrong_end c f.ck s.linkRx hf hstop
  · rw [bodyBytes, hstop]
    exact decodeA_wire_of_wrong_checksum c s.linkRx hf hck

end Sys2Proof.Machine
end

section
/-! The statements of 43_environment.md: the session, the host's transaction, and the facades. -/

namespace Sys2Proof.Machine

-- What each part of a transaction does to the session

theorem txRun_session (n : Nat) (s : State) : (txRun n s).session = s.session :=
  have ⟨_, _, _, ⟨hsession, _⟩, _⟩ := sendLeaves_txRun n s
  hsession

theorem answerAll_session (s : State) : (answerAll s).session = s.session :=
  have ⟨_, _, ⟨hsession, _⟩, _⟩ := receiveLeaves_answerAll s
  hsession

theorem beginRequest_session (c : Byte) (p : List Byte) (s : State) : (beginRequest c p s).session = s.session :=
  have ⟨_, _, hsession, _⟩ := beginRequest_leaves c p s
  hsession

theorem failWrite_session (n : Nat) (s : State) : (failWrite n s).session = s.session := txRun_session n s

theorem takeResponse_session (resp : List Byte) (s : State) : (takeResponse resp s).session = s.session :=
  answerAll_session _

theorem passFrame_session {bs : List Byte} {s t : State} (h : passFrame bs s = .next t) : t.session = s.session :=
  have ⟨_, ⟨hsession, _⟩, _⟩ := passFrame_leaves h
  hsession

/-- Serving an operation leaves the session alone (R197). -/
theorem transfer_session {s t : State} (h : transfer s = .next t) : t.session = s.session := by
  obtain ⟨bs, rest, -, h⟩ | ⟨bs, h⟩ | ⟨-, rfl⟩ | ⟨-, rfl⟩ := transfer_cases h
  · exact passFrame_session (s := { s with linkRx := rest }) h
  · exact passFrame_session h
  · exact answerAll_session s
  · exact txRun_session _ s

/-- So does a transaction, one whose write fails included. -/
theorem transceive_session {c : Byte} {p : List Byte} {cut : Option Nat} {resp : List Byte} {s t : State}
    (h : transceive c p cut resp s = .next t) : t.session = s.session := by
  have hreq := beginRequest_session c p s
  obtain ⟨-, rfl⟩ | ⟨-, -, ⟨n, rfl⟩ | rfl | rfl⟩ := transceive_cases h
  · rfl
  · rw [failWrite_session, hreq]
  · rw [takeResponse_session, reply_session, txRun_session, hreq]
  · exact hreq

/-- No event but an `open`, a `close` and an unrecoverable error reaches the session (R197). -/
theorem session_of_handle {e : Input} {s t : State} (he : e.isSession = false) (h : handle e s = .next t) :
    t.session = s.session := by
  cases e with
  | openLink _ _ | closeLink | linkFails _ => cases he
  | start op a plen =>
    obtain ⟨-, -, -, ⟨hsession, -⟩, -⟩ := operation_leaves (decodeStart_frameParts op a plen) (exec_of_takeStart h)
    exact hsession
  | txAccept => obtain ⟨-, rfl⟩ := takeAccept_cases h; exact txRun_session 1 s
  | rx =>
    obtain ⟨-, b, rest, -, rfl⟩ := takeRx_cases h
    obtain ⟨-, -, -, -, -, hsession, -⟩ := rxStep_frame b { s with linkRx := rest }
    exact hsession
  | rxTimeout =>
    obtain ⟨-, rfl⟩ := takeTimeout_cases h
    obtain ⟨-, -, -, -, -, hsession, -⟩ := timeoutStep_frame s
    exact hsession
  | transfer => exact transfer_session h
  | hostWrite i b => obtain ⟨-, -, rfl⟩ := hostWrite_cases h; rfl
  | hostRead r => obtain ⟨v, n, e⟩ := readValue_cases r s; rw [hostRead_cases h, e]
  | writeFails => rw [writeFails_cases h, reply_session]
  | transceive c p cut resp => exact transceive_session h
  | call q cut resp => obtain ⟨u, hu, rfl⟩ := call_cases h; exact transceive_session (t := u) hu
  | reset | arrive _ | discard => cases h; rfl

/-- Settles O50: the four events are written out by the model; the others by the event the step takes. -/
theorem sessionFollowsOpenAndClose : Obligations.SessionFollowsOpenAndClose := by
  refine ⟨fun _ _ _ hin => step_of_inputs hin, fun _ _ _ hin => step_of_inputs hin, fun _ _ hin => step_of_inputs hin,
    fun _ _ _ hin => step_of_inputs hin, fun s t e es hin he h => ?_⟩
  rw [step_of_inputs hin] at h
  exact session_of_handle (s := { s with inputs := es }) he h

-- A transaction, by the session and the phase

theorem transceive_of_closed {s : State} (c : Byte) (p : List Byte) (cut : Option Nat) (resp : List Byte)
    (hs : s.session = .closed) :
    transceive c p cut resp s = .next { s with bridge := some (.failed .notConnected) } := by
  simp only [transceive, hs]

theorem transceive_of_busy {s : State} (c : Byte) (p : List Byte) (cut : Option Nat) (resp : List Byte)
    (hs : s.session ≠ .closed) (hp : s.phase ≠ .idle) :
    transceive c p cut resp s = .refused .transceiveWhileBusy := by
  have hbusy : busy s = true := by simpa [busy] using hp
  cases hk : s.session with
  | closed => exact absurd hk hs
  | opened k => simp only [transceive, hk, hbusy, if_true]

/-- The state in which a transaction whose request the link has taken starts its DECODE (R199 step 4). -/
def requestSent (c : Byte) (p : List Byte) (s : State) : State :=
  reply .ok (txRun (p.length + 6) (beginRequest c p s))

/-- A transaction on an open link in an idle block whose payload fits and whose request the link takes (R199). -/
theorem transceive_of_taken {s : State} {p : List Byte} (c : Byte) (resp : List Byte) (hp : s.phase = .idle)
    (hs : s.session ≠ .closed) (h : p.length ≤ maxPayload) :
    transceive c p none resp s = .next (takeResponse resp (requestSent c p s)) := by
  have hbusy : busy (beginRequest c p s) = true := by rw [beginRequest_of_fits s h]; rfl
  cases hk : s.session with
  | closed => exact absurd hk hs
  | opened k => simp [transceive, hk, hp, hbusy, requestSent]

/-- What the request has done: the whole frame is sent, nothing is pending, the session is as it was (R199 steps 2
and 3). -/
theorem requestSent_leaves {p : List Byte} (c : Byte) (s : State) (h : p.length ≤ maxPayload) :
    (requestSent c p s).linkTx = s.linkTx ++ frame c p ∧ (requestSent c p s).linkRx = [] ∧
    (requestSent c p s).session = s.session ∧ (requestSent c p s).inputs = s.inputs := by
  obtain ⟨-, hlinkRx, hsession, hinputs, -⟩ := beginRequest_leaves c p s
  obtain ⟨-, hrx, -⟩ := sendLeaves_txRun (p.length + 6) (beginRequest c p s)
  refine ⟨?_, hrx.trans hlinkRx, (txRun_session _ _).trans hsession, (txRun_inputs _ _).trans hinputs⟩
  rw [requestSent, reply_linkTx, txRun_beginRequest_linkTx c _ s h, List.take_of_length_le]
  simp [frame]

/-- What the host returns for the state a DECODE leaves is its result (R199 steps 4 and 5). -/
theorem bridgeOf_of_decodeLeaves {r : DecodeResult} {t : State} (h : DecodeLeaves r t) :
    bridgeOf t = bridgeOfResult r := by
  obtain ⟨-, -, herr, hvalues⟩ := h
  cases r with
  | ok c p =>
    obtain ⟨-, hlen, -, -, -, -, hholds, -⟩ := hvalues
    simp only [bridgeOf, herr, DecodeResult.code, bridgeOfResult, rxPayload, hlen, filterMap_memRead hholds]
  | error e =>
    obtain ⟨-, hempty⟩ := hvalues
    cases e with
    | none => simp [bridgeOf, herr, DecodeResult.code, bridgeOfResult, rxPayload, hempty]
    | timeout | badStartByte | truncated | badEndByte | checksumMismatch | payloadTooLarge =>
      simp only [bridgeOf, herr, DecodeResult.code, bridgeOfResult]

/-- Where nothing else is pending, the response is DecodeA of the bytes that come (R199 step 4, R168). -/
theorem takeResponse_decodes {s : State} (resp : List Byte) (h : s.linkRx = []) :
    (takeResponse resp s).bridge = some (bridgeOfResult (decodeA resp).1) ∧
    DecodeLeaves (decodeA resp).1 (takeResponse resp s) ∧
    (takeResponse resp s).linkRx = resp.drop (decodeA resp).2 := by
  obtain ⟨hresult, hrest⟩ := answerAll_levelA (s := acceptDecode { s with linkRx := s.linkRx ++ resp }) rfl
  rw [acceptDecode_linkRx, h, List.nil_append] at hresult hrest
  simp only [takeResponse, h, List.nil_append]
  exact ⟨congrArg some (bridgeOf_of_decodeLeaves hresult), hresult, hrest⟩

theorem takeResponse_linkTx (resp : List Byte) (s : State) : (takeResponse resp s).linkTx = s.linkTx :=
  answerAll_linkTx _

theorem takeResponse_inputs (resp : List Byte) (s : State) : (takeResponse resp s).inputs = s.inputs :=
  answerAll_inputs _

/-- A whole transaction that the link lets through (R199): it sends its frame and returns DecodeA of the response. -/
theorem transceive_sends_and_decodes {s : State} {p : List Byte} (c : Byte) (resp : List Byte) (hp : s.phase = .idle)
    (hs : s.session ≠ .closed) (h : p.length ≤ maxPayload) :
    ∃ t, transceive c p none resp s = .next t ∧ t.linkTx = s.linkTx ++ frame c p ∧
      t.linkRx = resp.drop (decodeA resp).2 ∧ t.bridge = some (bridgeOfResult (decodeA resp).1) ∧
      DecodeLeaves (decodeA resp).1 t ∧ t.session = s.session ∧ t.inputs = s.inputs := by
  obtain ⟨hlinkTx, hempty, hsession, hinputs⟩ := requestSent_leaves c s h
  obtain ⟨hbridge, hresult, hrest⟩ := takeResponse_decodes resp hempty
  exact ⟨takeResponse resp (requestSent c p s), transceive_of_taken c resp hp hs h,
    (takeResponse_linkTx resp _).trans hlinkTx, hrest, hbridge, hresult, (takeResponse_session resp _).trans hsession,
    (takeResponse_inputs resp _).trans hinputs⟩

/-- Settles O52: the request's run sends the frame, and the DECODE after it hands back what Level A says. -/
theorem transactionSendsAndDecodes : Obligations.TransactionSendsAndDecodes := by
  intro s c p resp es hp hs h hin
  rw [step_of_inputs hin]
  exact transceive_sends_and_decodes (s := { s with inputs := es }) c resp hp hs h

-- Recovery after a truncated response

/-- Bytes that arrive one after the other join LINK_RX and change nothing else (R52). -/
theorem steps_arrive (late : List Byte) {es : List Input} : ∀ s : State, s.inputs = late.map .arrive ++ es →
    steps late.length s = .next { s with linkRx := s.linkRx ++ late, inputs := es } := by
  induction late with
  | nil =>
    intro s hin
    obtain rfl : s.inputs = es := hin
    simp [steps]
  | cons b late ih =>
    intro s hin
    have harrive : step s = .next (arrive b { s with inputs := late.map .arrive ++ es }) := step_of_inputs hin
    rw [List.length_cons, steps_succ harrive, ih _ rfl]
    simp [arrive]

/-- Settles O55: the first response ends before its frame does, and the second transaction discards what came late. -/
theorem transactionRecoversAfterTruncation : Obligations.TransactionRecoversAfterTruncation := by
  intro s c c' d d' p p' q q' short late after es hp hs hfits hfits' hq hq' hprefix hne hproper hin
  obtain ⟨t, hfirst, hsent, -, hbridge, ⟨hidle, -⟩, hsession, hinputs⟩ :=
    transactionSendsAndDecodes s c p short _ hp hs hfits hin
  rw [properPrefixIsTruncated d q short hq hprefix hproper, if_neg hne] at hbridge
  let v : State := { t with
    linkRx := t.linkRx ++ late, inputs := .transceive c' p' none (frame d' q' ++ after) :: es }
  have hlate : steps late.length t = .next v := steps_arrive late t hinputs
  obtain ⟨u, hsecond, hsent', -, hbridge', -, -, hinputs'⟩ :=
    transactionSendsAndDecodes v c' p' (frame d' q' ++ after) es hidle (hsession ▸ hs) hfits' rfl
  rw [decodeOfFrameGivesItBack d' q' after hq'] at hbridge'
  refine ⟨t, u, hfirst, hbridge, ?_, hbridge', hinputs', by rw [hsent', hsent]⟩
  rw [steps_succ hfirst, steps_add hlate]
  exact steps_succ hsecond 0

-- What a facade reads

theorem statusOf_eq_ok_iff : ∀ b : Byte, statusOf b = some .ok ↔ b = 0x00#8 := by decide

theorem statusOf_eq_none_iff : ∀ b : Byte, statusOf b = none ↔ 0x06#8 < b := by decide

/-- What a facade accepts (R206). -/
theorem judge_eq_accepted_iff (f : Facade) (r : BridgeResult) (x : Response) :
    f.judge r = .accepted x ↔ ∃ q, r = .payload (0x00#8 :: q) ∧ f.parse q = some x := by
  match r with
  | .failed _ | .payload [] => simp [Facade.judge]
  | .payload (b :: q) =>
    simp only [Facade.judge, statusOf_eq_ok_iff]
    by_cases hb : b = 0x00#8
    · cases hx : f.parse q <;> simp [hb, hx]
    · simp [hb]

/-- A facade's response is there exactly where the bytes reach the end of its fixed fields (R205, R206). -/
theorem parse_isSome_iff (f : Facade) (q : List Byte) : (f.parse q).isSome = true ↔ f.responseFixed ≤ q.length := by
  cases f with
  | ping => rcases q with _ | ⟨_, _ | ⟨_, _ | ⟨_, _ | _⟩⟩⟩ <;> simp [Facade.parse, Facade.responseFixed]
  | getVersion => rcases q with _ | ⟨_, _ | ⟨_, _ | _⟩⟩ <;> simp [Facade.parse, Facade.responseFixed]
  | getStatus | udpReceive =>
    rcases q with _ | ⟨_, _ | ⟨_, _ | ⟨_, _ | ⟨_, _ | ⟨_, _ | ⟨_, _ | ⟨_, _ | _⟩⟩⟩⟩⟩⟩⟩ <;>
      simp [Facade.parse, Facade.responseFixed]
  | udpSend => rcases q with _ | ⟨_, _ | _⟩ <;> simp [Facade.parse, Facade.responseFixed]
  | tcpConnect => simp [Facade.parse, Facade.responseFixed]
  | i2cScan => cases q <;> simp [Facade.parse, Facade.responseFixed]

/-- Settles O56: the verdict by what the transaction returned, the response by the facade. -/
theorem facadeJudgesTransaction : Obligations.FacadeJudgesTransaction :=
  ⟨judge_eq_accepted_iff, parse_isSome_iff, by decide, by decide, statusOf_eq_none_iff⟩

-- The layouts

theorem readAddresses_append {n : Byte} {as : List Byte} (h : as.length = n.toNat) (later : List Byte) :
    readAddresses n (as ++ later) = as := by
  rw [readAddresses, if_pos (by simp [h]), ← h, List.take_left]

theorem followsTable_iff (x : Response) : x.followsTable = true ↔
    (∀ m, x ≠ .pingOther m) ∧ ∀ n as, x = .i2cScan n as → as.length = n.toNat := by
  cases x <;> simp [Response.followsTable]

/-- A response whose last field has an end is read back whatever follows it (R205). -/
theorem parse_bytes_append {x : Response} (h : x.followsTable = true) (hf : x.facade ≠ .udpReceive)
    (later : List Byte) : x.facade.parse (x.bytes ++ later) = some x := by
  cases x with
  | ping => exact congrArg some (if_pos rfl)
  | pingOther _ => cases h
  | getVersion _ _ _ | getStatus _ _ _ _ _ _ _ _ | tcpConnect => rfl
  | udpSend n => simp [Response.facade, Response.bytes, bigEndian, Facade.parse]
  | udpReceive _ _ _ _ => exact absurd rfl hf
  | i2cScan n as =>
    have hlen : as.length = n.toNat := by simpa [Response.followsTable] using h
    simp [Response.facade, Response.bytes, Facade.parse, readAddresses_append hlen]

/-- UDP receive's data is all that follows its fixed fields, so its bytes are read back alone. -/
theorem parse_bytes_udpReceive (ip : Quad) (port n : Half) (data : List Byte) :
    Facade.parse .udpReceive (Response.bytes (.udpReceive ip port n data)) = some (.udpReceive ip port n data) := by
  simp [Response.bytes, Quad.bytes, bigEndian, Facade.parse]

theorem parse_bytes {x : Response} (h : x.followsTable = true) : x.facade.parse x.bytes = some x := by
  by_cases hf : x.facade = .udpReceive
  · cases x with
    | udpReceive ip port n data => exact parse_bytes_udpReceive ip port n data
    | _ => cases hf
  · simpa using parse_bytes_append h hf []

/-- Settles O57: the layouts are written out by the model; reading back is by the response. -/
theorem facadeLayoutsAreTheTable : Obligations.FacadeLayoutsAreTheTable :=
  ⟨fun _ _ _ _ => rfl, fun _ _ => rfl, fun _ _ _ _ => rfl, ⟨rfl, rfl, rfl, rfl⟩, rfl, fun _ => rfl,
    fun _ _ _ => rfl, fun _ _ _ _ _ _ _ _ => rfl, fun _ => rfl, fun _ _ _ _ => rfl, ⟨rfl, fun _ _ => rfl⟩,
    fun _ h => ⟨parse_bytes h, parse_bytes_append h⟩, followsTable_iff, fun _ _ => rfl,
    fun n rest _ => ⟨readAddresses n rest, rfl⟩⟩

-- A facade's operation

/-- A facade's operation whose transaction has a move is judged on it (R206). -/
theorem call_of_transceive {q : Request} {cut : Option Nat} {resp : List Byte} {s u : State}
    (h : transceive q.facade.command q.payload cut resp s = .next u) : call q cut resp s = .next (verdict q.facade u) := by
  unfold call; rw [h]

/-- Settles O58: the operation is its transaction with the verdict written. -/
theorem facadeCallTransactsAndJudges : Obligations.FacadeCallTransactsAndJudges := by
  refine ⟨fun s q resp es hp hs h hin => ?_, fun s q cut resp es hs hin => ?_, fun s u q cut resp es hin hu => ?_, rfl⟩ <;>
    rw [step_of_inputs hin]
  · obtain ⟨t, ht, hlinkTx, -, hbridge, ⟨hidle, -⟩, -, hinputs⟩ :=
      transceive_sends_and_decodes (s := { s with inputs := es }) q.facade.command resp hp hs h
    exact ⟨verdict q.facade t, call_of_transceive ht, hlinkTx, hbridge, by simp [verdict, hbridge], hidle, hinputs⟩
  · exact call_of_transceive (transceive_of_closed (s := { s with inputs := es }) _ _ cut resp hs)
  · rw [step_of_inputs rfl] at hu
    exact call_of_transceive hu

-- Closed sessions, and what has no move

/-- Settles O51: by the session; the categories are told apart one by one. -/
theorem closedSessionIsNotTouched : Obligations.ClosedSessionIsNotTouched := by
  refine ⟨fun s c p resp cut es hs hin => ?_, fun e e' h => ?_, rfl, fun e => ?_⟩
  · rw [step_of_inputs hin]
    exact transceive_of_closed (s := { s with inputs := es }) c p cut resp hs
  · cases e <;> cases e' <;> cases h <;> rfl
  · cases e <;> simp [BridgeError.ofTransport]

/-- Settles O59: the host's duty of R207 is looked at first. -/
theorem startOfDecodeOnClosedLinkHasNoMove : Obligations.StartOfDecodeOnClosedLinkHasNoMove := by
  intro s a plen es hp hs hin
  rw [step_of_inputs hin]
  exact if_pos ⟨rfl, hs, hp⟩

/-- Settles O60: a facade's operation is refused as its transaction is. -/
theorem transactionHasNoMoveWhileBusy : Obligations.TransactionHasNoMoveWhileBusy := by
  intro s e es hin he hp hs
  have hrefused (c : Byte) (p : List Byte) (cut : Option Nat) (resp : List Byte) :
      transceive c p cut resp { s with inputs := es } = .refused .transceiveWhileBusy :=
    transceive_of_busy (s := { s with inputs := es }) c p cut resp hs hp
  rw [step_of_inputs hin]
  cases e with
  | transceive c p cut resp => exact hrefused c p cut resp
  | call q cut resp => simp only [handle, call, hrefused]
  | _ => cases he

end Sys2Proof.Machine
end

section
/-! The statement of 60_exceptions.md: a frame that meets a block which does not read it. -/

namespace Sys2Proof.Machine

/-- Settles O36: the frame is not the one an ENCODE is about to send, so it is delivered; a block that wants no byte takes
none of it (R235, R271). -/
theorem frameWaitsUnlessRead : Obligations.FrameWaitsUnlessRead := by
  intro i c f s hi hw hne
  rw [exec_frame hi, passFrame_deliver hne, deliver_of_not_want hw]

end Sys2Proof.Machine
end

section
/-! The statements of 70_reset_and_hazards.md: a `start` in a busy block, and link events without their flag. -/

namespace Sys2Proof.Machine

/-- Without `tx_valid` no byte is accepted. -/
theorem takeAccept_of_not_valid {s : State} (hv : txValid s = false) : takeAccept s = .refused .txNotOffered := by
  simp [takeAccept, hv]

/-- Without `rx_want` no byte is delivered, whatever LINK_RX holds. -/
theorem takeRx_of_not_want {s : State} (hw : rxWant s = false) : takeRx s = .refused .rxNotWanted := by
  simp [takeRx, hw]

/-- Without `rx_want` no read times out. -/
theorem takeTimeout_of_not_want {s : State} (hw : rxWant s = false) : takeTimeout s = .refused .rxNotWanted := by
  simp [takeTimeout, hw]

/-- Settles O39: a busy block refuses each of the four operations. -/
theorem startHasNoMoveWhileBusy : Obligations.StartHasNoMoveWhileBusy := by
  intro s op a plen es hp hin
  rw [step_of_inputs hin]
  exact takeStart_of_busy (s := { s with inputs := es }) op a plen hp

/-- Settles O40: event by event, each under its own flag. -/
theorem linkEventsNeedTheirFlag : Obligations.LinkEventsNeedTheirFlag := by
  refine ⟨fun s es hin hv => ?_, fun s e es hin he hw => ?_⟩ <;> rw [step_of_inputs hin]
  · exact takeAccept_of_not_valid (s := { s with inputs := es }) hv
  · obtain rfl | rfl := he
    · exact takeRx_of_not_want (s := { s with inputs := es }) hw
    · exact takeTimeout_of_not_want (s := { s with inputs := es }) hw

end Sys2Proof.Machine
end
